-- ==== Sys2Proof/Word.lean ====
section
/-! DEFINITION. The 32-bit word of the block (R11, R34): the width of SCALE, of a bitmap word, of a coordinate
field and of RDATA. -/

namespace Sys2Proof

/-- A 32-bit unsigned value (R11). -/
abbrev Word := BitVec 32

end Sys2Proof
end

