-- ==== Sys2Proof/Syntax.lean ====
section
/-! DEFINITION. The transactions the block's ports take, the inputs of a run, the eight operations of the opcode
map, and the reasons a HOST pattern is reserved (30_encoding.md). -/

namespace Sys2Proof

/-- A transaction, by the port it arrives on; the port fixes its format and its length (R47, R58). -/
inductive Transaction where
  /-- The host register port, `H[39:0]` (R48). -/
  | host (h : BitVec 40)
  /-- The sample port, `S[63:0]` (R51). -/
  | sample (w : BitVec 64)
  deriving DecidableEq, Repr

/-- What can reach the block: a transaction on one of its two ports, or the reset signal (R47). -/
inductive Input where
  | transaction (t : Transaction)
  /-- The reset input is asserted and released (R110). -/
  | reset
  deriving DecidableEq, Repr

/-- The eight operations of the opcode map (R55), one constructor per row of spec/opcode_table.json. -/
inductive Instr where
  /-- SCALE_RD: read the scale register (R81). WDATA is ignored (R50). -/
  | scaleRd
  /-- CTRL_RD: read the draw-control register (R82). WDATA is ignored (R50). -/
  | ctrlRd
  /-- BMP_RD: read bitmap word `i` = WADDR[5:0] (R86). WDATA is ignored (R50). -/
  | bmpRd (i : BitVec 6)
  /-- SCALE_WR: write `v` = WDATA to the scale register (R80). -/
  | scaleWr (v : Word)
  /-- DRAW_END: close a draw call (R84). -/
  | drawEnd
  /-- DRAW_BEGIN: open a draw call (R83). -/
  | drawBegin
  /-- BMP_WR: write `v` = WDATA to bitmap word `i` = WADDR[5:0] (R85). -/
  | bmpWr (i : BitVec 6) (v : Word)
  /-- DECODE: decode the sample at the binary32 coordinates `x` = S[63:32], `y` = S[31:0] (R62). -/
  | decode (x y : Word)
  deriving DecidableEq, Repr

/-- Why a HOST pattern matches no row of the opcode map; each carries the 40-bit pattern (R56). -/
inductive DecodeError where
  /-- R56 item 1: WADDR is 2 to 63. -/
  | reservedAddress (h : BitVec 40)
  /-- R56 item 2: a CTRL write whose WDATA is neither 0 nor 1. -/
  | reservedCtrlValue (h : BitVec 40)
  deriving DecidableEq, Repr

/-- A HOST row of the opcode map (R55): a word `h` matches it when `h &&& mask = pattern`. -/
structure OpcodeRow where
  mnemonic : String
  pattern : BitVec 40
  mask : BitVec 40
  deriving DecidableEq, Repr

end Sys2Proof
end

