-- ==== Sys2Proof/WellFormed.lean ====
section
/-! DEFINITION. Well-formed operations and defined HOST patterns, written from the prose of 30_encoding.md and
independently of the decoder. -/

namespace Sys2Proof

/-- Every operation is well formed: each operand is a bit vector as wide as its field, every value of the field
is an operand (R49, R50, R51), and a value that faults, such as SCALE_WR 0, faults when it is executed (R55). -/
def Instr.WellFormed : Instr → Bool
  | .scaleRd => true
  | .ctrlRd => true
  | .bmpRd _ => true
  | .scaleWr _ => true
  | .drawEnd => true
  | .drawBegin => true
  | .bmpWr _ _ => true
  | .decode _ _ => true

/-- R56 item 1, on `H[38:32]`: the word address names no register. -/
def HasReservedAddress (h : BitVec 40) : Bool :=
  decide (2 ≤ h.toNat / 2 ^ 32 % 2 ^ 7) && decide (h.toNat / 2 ^ 32 % 2 ^ 7 ≤ 63)

/-- R56 item 2: a write to CTRL (WE = 1, WADDR = 1) with any of WDATA bits 31:1 set. -/
def HasReservedCtrlValue (h : BitVec 40) : Bool :=
  decide (h.toNat / 2 ^ 32 = 2 ^ 7 + 1) && decide (2 ≤ h.toNat % 2 ^ 32)

/-- A transaction that R122 lets an agent use: a SAMPLE, or a HOST pattern that R56 does not reserve. -/
def Transaction.WellFormed : Transaction → Bool
  | .host h => !HasReservedAddress h && !HasReservedCtrlValue h
  | .sample _ => true

end Sys2Proof
end

