-- ==== Sys2Proof/Decode.lean ====
section
/-! DEFINITION. The decoder, total on every 40-bit HOST and 64-bit SAMPLE pattern and rejecting reserved patterns
by name (R54, R56), the encoder (R55), the opcode map as a table, and the table-word entry points. -/

namespace Sys2Proof

/-- WE = H[39] (R48). -/
def hostWE (h : BitVec 40) : Bool := h.getLsbD 39

/-- WADDR = H[38:32] (R48). -/
def hostWADDR (h : BitVec 40) : BitVec 7 := h.extractLsb' 32 7

/-- WDATA = H[31:0] (R48). -/
def hostWDATA (h : BitVec 40) : Word := h.extractLsb' 0 32

/-- X = S[63:32] (R51). -/
def sampleX (w : BitVec 64) : Word := w.extractLsb' 32 32

/-- Y = S[31:0] (R51). -/
def sampleY (w : BitVec 64) : Word := w.extractLsb' 0 32

/-- A HOST word from its fields: `(WE << 39) | (WADDR << 32) | WDATA` (R55). -/
def hostWord (we : Bool) (waddr : BitVec 7) (wdata : Word) : BitVec 40 :=
  ((BitVec.ofBool we).setWidth 40 <<< 39) ||| (waddr.setWidth 40 <<< 32) ||| wdata.setWidth 40

/-- A SAMPLE word from its fields (R51). -/
def sampleWord (x y : Word) : BitVec 64 := (x.setWidth 64 <<< 32) ||| y.setWidth 64

/-- WADDR of SCALE (R49). -/
def scaleWADDR : BitVec 7 := 0

/-- WADDR of CTRL (R49). -/
def ctrlWADDR : BitVec 7 := 1

/-- WADDR of `BMP[i]`: 64 + i, which is bit 6 set above the index (R49). -/
def bmpWADDR (i : BitVec 6) : BitVec 7 := 64#7 ||| i.setWidth 7

/-- The HOST decoder (R49, R55, R56). -/
def decodeHost (h : BitVec 40) : Except DecodeError Instr :=
  if (hostWADDR h).getLsbD 6 then
    if hostWE h then .ok (.bmpWr ((hostWADDR h).extractLsb' 0 6) (hostWDATA h))
    else .ok (.bmpRd ((hostWADDR h).extractLsb' 0 6))
  else if hostWADDR h = scaleWADDR then
    if hostWE h then .ok (.scaleWr (hostWDATA h)) else .ok .scaleRd
  else if hostWADDR h = ctrlWADDR then
    if hostWE h then
      if hostWDATA h = 0 then .ok .drawEnd
      else if hostWDATA h = 1 then .ok .drawBegin
      else .error (.reservedCtrlValue h)
    else .ok .ctrlRd
  else .error (.reservedAddress h)

/-- The SAMPLE decoder: every pattern is DECODE (R54). -/
def decodeSample (w : BitVec 64) : Instr := .decode (sampleX w) (sampleY w)

/-- The decoder: the port fixes the format (R47, R58). -/
def decode : Transaction → Except DecodeError Instr
  | .host h => decodeHost h
  | .sample w => .ok (decodeSample w)

/-- The 40-bit pattern that a rejection carries (R99). -/
def DecodeError.pattern : DecodeError → BitVec 40
  | .reservedAddress h => h
  | .reservedCtrlValue h => h

/-- The encoder (R55); a read is written with WDATA = 0, its canonical encoding (R50). -/
def encode : Instr → Transaction
  | .scaleRd => .host (hostWord false scaleWADDR 0)
  | .ctrlRd => .host (hostWord false ctrlWADDR 0)
  | .bmpRd i => .host (hostWord false (bmpWADDR i) 0)
  | .scaleWr v => .host (hostWord true scaleWADDR v)
  | .drawEnd => .host (hostWord true ctrlWADDR 0)
  | .drawBegin => .host (hostWord true ctrlWADDR 1)
  | .bmpWr i v => .host (hostWord true (bmpWADDR i) v)
  | .decode x y => .sample (sampleWord x y)

/-- Does the word match the row under the row's mask (R54)? -/
def OpcodeRow.matchesWord (r : OpcodeRow) (h : BitVec 40) : Bool := h &&& r.mask = r.pattern

def rowScaleRd : OpcodeRow := ⟨"SCALE_RD", 0x0000000000#40, 0xFF00000000#40⟩
def rowCtrlRd : OpcodeRow := ⟨"CTRL_RD", 0x0100000000#40, 0xFF00000000#40⟩
def rowBmpRd : OpcodeRow := ⟨"BMP_RD", 0x4000000000#40, 0xC000000000#40⟩
def rowScaleWr : OpcodeRow := ⟨"SCALE_WR", 0x8000000000#40, 0xFF00000000#40⟩
def rowDrawEnd : OpcodeRow := ⟨"DRAW_END", 0x8100000000#40, 0xFFFFFFFFFF#40⟩
def rowDrawBegin : OpcodeRow := ⟨"DRAW_BEGIN", 0x8100000001#40, 0xFFFFFFFFFF#40⟩
def rowBmpWr : OpcodeRow := ⟨"BMP_WR", 0xC000000000#40, 0xC000000000#40⟩

/-- The seven HOST rows of the opcode map (R55), in the table's order. -/
def hostRows : List OpcodeRow :=
  [rowScaleRd, rowCtrlRd, rowBmpRd, rowScaleWr, rowDrawEnd, rowDrawBegin, rowBmpWr]

/-- The HOST row of an operation; DECODE is on the sample port and has none (R55). -/
def Instr.hostRow : Instr → Option OpcodeRow
  | .scaleRd => some rowScaleRd
  | .ctrlRd => some rowCtrlRd
  | .bmpRd _ => some rowBmpRd
  | .scaleWr _ => some rowScaleWr
  | .drawEnd => some rowDrawEnd
  | .drawBegin => some rowDrawBegin
  | .bmpWr _ _ => some rowBmpWr
  | .decode _ _ => none

/-- The transaction whose bits are `w`, for a table row of `nbits` bits. Every HOST row fixes bit 39, so a HOST row
has 40 bits; any other length up to 64 is a SAMPLE whose bits above `nbits` are 0 (log 12). -/
def tableTransaction (nbits w : Nat) : Option Transaction :=
  if nbits = 40 then some (.host (BitVec.ofNat 40 w))
  else if nbits ≤ 64 then some (.sample (BitVec.ofNat 64 (w % 2 ^ nbits)))
  else none

/-- The operation the decoder reads from a table word; none where it rejects the word. -/
def decodeTableWord (nbits w : Nat) : Option Instr :=
  match tableTransaction nbits w with
  | none => none
  | some t =>
    match decode t with
    | .ok i => some i
    | .error _ => none

end Sys2Proof
end

