-- ==== Sys2Proof/Config.lean ====
section
/-! DEFINITION. What an implementation of the block fixes: the display geometry, which the spec states (R6), and
the lanes, which it leaves open (R9). -/

namespace Sys2Proof

/-- Logical columns (R6). -/
@[reducible, simp] def Config.width : Nat := 64

/-- Logical rows (R6). -/
@[reducible, simp] def Config.height : Nat := 32

/-- Pixels in one bitmap word (R6). -/
@[reducible, simp] def Config.bitsPerWord : Nat := 32

/-- Bitmap words in one logical row (R6). -/
@[reducible, simp] def Config.wordsPerRow : Nat := 2

/-- Words in the bitmap buffer (R6). -/
@[reducible, simp] def Config.bitmapWords : Nat := 64

/-- How many lanes the block has beyond the first. OPEN in the spec (R9), so it has no body here. -/
opaque Config.extraLanes : Nat

/-- LANES, an open integer of at least 1 (R9). -/
def Config.lanes : Nat := Config.extraLanes + 1

/-- A free value: the choice that decides which lane takes a sample (U11). It has no body, and R71 says that no
output depends on it. -/
opaque Config.laneChoice : Nat → Nat

/-- The lane that takes the `n`-th sample: any of the LANES lanes (R71). -/
def Config.laneFor (n : Nat) : Fin Config.lanes :=
  ⟨Config.laneChoice n % Config.lanes, Nat.mod_lt _ (Nat.succ_pos _)⟩

end Sys2Proof
end

