-- ==== Sys2Proof/Machine/State.lean ====
section
/-! DEFINITION. The block's state as plain data (10_state.md), its fault records, the reasons a step stops, and the
state right after reset (R29, R110). -/

namespace Sys2Proof.Machine

/-- The bitmap buffer BMP (R22), sparse: the words written since reset, each with its index, indices rising. A word
that is not listed is ⊥ (R28). The smallest access is a whole word and byte order cannot be observed (R33, R34), so a
cell holds a word (log 5). -/
abbrev Memory := List (Nat × Word)

/-- One output event (R53). -/
structure Event where
  /-- The truncated x coordinate. -/
  px : Word
  /-- The truncated y coordinate. -/
  py : Word
  /-- The tested bit. -/
  lit : Bool
  /-- The colour: R in bits 31:24, G in 23:16, B in 15:8, A in 7:0. -/
  rgba : Word
  deriving DecidableEq, Repr

/-- OUT, the multiset of events emitted so far (R27), as the one sorted list of its members (log 6). -/
abbrev Output := List Event

/-- A model fault with the info R90 to R100 record: the value of FAULT (R27, R89). -/
inductive FaultRecord where
  /-- Code 1, F_SCALE_ZERO (R90): raised by SCALE_WR of 0. -/
  | scaleZero (v : Word)
  /-- Code 2, F_SCALE_UNSET (R91): raised by DRAW_BEGIN while SCALE is ⊥. -/
  | scaleUnset
  /-- Code 3, F_COORD_INVALID (R92): raised by DECODE on a NaN, an infinity or a negative nonzero field. -/
  | coordInvalid (field : Word)
  /-- Code 4, F_COORD_RANGE (R93): raised by DECODE outside the defined domain. -/
  | coordRange (px py : Nat)
  /-- Code 5, F_BITMAP_UNSET (R94): raised by DECODE when it fetches a ⊥ word. -/
  | bitmapUnset (wordIdx : Nat)
  /-- Code 6, F_NO_DRAW (R95): raised by DECODE while DRAW = 0. -/
  | noDraw (x y : Word)
  /-- Code 7, F_WRITE_IN_DRAW (R96): raised by SCALE_WR and BMP_WR while DRAW = 1. -/
  | writeInDraw (waddr : BitVec 7)
  /-- Code 8, F_DRAW_NESTED (R97): raised by DRAW_BEGIN while DRAW = 1. -/
  | drawNested
  /-- Code 9, F_DRAW_IDLE (R98): raised by DRAW_END while DRAW = 0. -/
  | drawIdle
  /-- Code 10, F_RESERVED (R99): raised by a HOST pattern that matches no row. -/
  | reserved (h : BitVec 40)
  /-- Code 11, F_UNSET_READ (R100): raised by SCALE_RD and BMP_RD of a ⊥ element. -/
  | unsetRead (waddr : BitVec 7)
  deriving DecidableEq, Repr

/-- Everything the spec gives the block. -/
structure State where
  /-- SCALE; `none` is ⊥ (R18, R28). -/
  scale : Option Word
  /-- BMP[0..63] (R22). -/
  bmp : Memory
  /-- DRAW, bit 0 of CTRL (R20). -/
  draw : Bool
  /-- INFLIGHT: samples accepted and not yet output (R25). -/
  inflight : List (BitVec 64)
  /-- FAULT (R27). -/
  fault : Option FaultRecord
  /-- OUT (R27). -/
  out : Output
  /-- The model's own: RDATA values returned to the HOST, oldest first (R123, log 7). -/
  rdata : List Word
  /-- The model's own: inputs not yet performed, in the order they will be (R16, log 2). -/
  pending : List Input
  deriving DecidableEq, Repr

/-- Why the machine has no next state. -/
inductive Fault where
  /-- Raised by `step` alone, on a faulted run whose next input is not the reset input: such a run has no further
  steps (R89, R105). A reset listed behind another input is not the next one (log 18). Safe: the model claims nothing where the hardware may do anything. -/
  | faultedRun (r : FaultRecord)
  deriving DecidableEq, Repr

/-- Why the machine gives an operation no meaning. -/
inductive Refusal where
  /-- Raised by no arm of `exec`: every operation of the opcode map has its meaning. It would be safe. -/
  | notModelled (mnemonic : String)
  deriving DecidableEq, Repr

/-- Right after reset (R29, R110): SCALE and every BMP word ⊥, DRAW 0, INFLIGHT empty, FAULT none, OUT empty. The
model's own two fields start empty (log 2, log 7). -/
def State.reset : State where
  scale := none
  bmp := []
  draw := false
  inflight := []
  fault := none
  out := []
  rdata := []
  pending := []

/-- What one operation or step answers. -/
abbrev Result := Host.Outcome State Fault Refusal

end Sys2Proof.Machine
end

