-- ==== Sys2Proof/Machine/Ops.lean ====
section
/-! DEFINITION. The named operations over the state: the bitmap buffer, raising a fault (this block's whole exception
mechanism), returning RDATA, emitting an event, and reset. -/

namespace Sys2Proof.Machine

/-- `BMP[i]`; `none` is ⊥ (R28). -/
def Memory.read : Memory → Nat → Option Word
  | [], _ => none
  | (k, w) :: m, i => if k = i then some w else Memory.read m i

/-- `BMP[i] <- v`, keeping the indices rising (R12). -/
def Memory.write : Memory → Nat → Word → Memory
  | [], i, v => [(i, v)]
  | (k, w) :: m, i, v =>
    if i < k then (i, v) :: (k, w) :: m
    else if i = k then (i, v) :: m
    else (k, w) :: Memory.write m i v

/-- The canonical form of the buffer: indices strictly rising and below BITMAP_WORDS. -/
abbrev Memory.wf (m : Memory) : Prop :=
  m.Pairwise (fun a b => a.1 < b.1) ∧ ∀ c ∈ m, c.1 < Config.bitmapWords

/-- A number that orders events and tells any two apart: PX, PY, LIT and RGBA side by side. -/
def Event.key (e : Event) : Nat :=
  ((e.px.toNat * 2 ^ 32 + e.py.toNat) * 2 + e.lit.toNat) * 2 ^ 32 + e.rgba.toNat

/-- Add one event to the multiset OUT (R27). -/
def Output.insert (e : Event) : Output → Output
  | [] => [e]
  | f :: o => if e.key ≤ f.key then e :: f :: o else f :: Output.insert e o

/-- The canonical form of OUT: its events in order. -/
abbrev Output.wf (o : Output) : Prop := o.Pairwise (fun a b => a.key ≤ b.key)

/-- The numeric code of a fault (R90 to R100). -/
def FaultRecord.code : FaultRecord → Nat
  | .scaleZero _ => 1
  | .scaleUnset => 2
  | .coordInvalid _ => 3
  | .coordRange _ _ => 4
  | .bitmapUnset _ => 5
  | .noDraw _ _ => 6
  | .writeInDraw _ => 7
  | .drawNested => 8
  | .drawIdle => 9
  | .reserved _ => 10
  | .unsetRead _ => 11

/-- FAULT after `raise Fault(code, info)`: set if it was none, else the first one is kept (R89, R105). -/
def State.raiseFault (r : FaultRecord) (s : State) : State :=
  match s.fault with
  | none => { s with fault := some r }
  | some _ => s

/-- `raise Fault(code, info)` (R89): the one shared way an operation takes a fault. The operation is abandoned, so
nothing but FAULT changes; there is no vector, mode, saved state or return (R104, R105). -/
def raise (r : FaultRecord) (s : State) : Result := .next (s.raiseFault r)

/-- Return `RDATA` to the HOST (R48). -/
def State.respond (v : Word) (s : State) : State := { s with rdata := s.rdata ++ [v] }

/-- `SCALE <- v` (R12). -/
def State.setScale (v : Word) (s : State) : State := { s with scale := some v }

/-- `BMP[i] <- v` (R12). -/
def State.setBmp (i : Nat) (v : Word) (s : State) : State := { s with bmp := s.bmp.write i v }

/-- `DRAW <- b` (R12). -/
def State.setDraw (b : Bool) (s : State) : State := { s with draw := b }

/-- `emit(px, py, lit, rgba)` (R12, R53): the SINK always accepts (R24). -/
def State.emit (e : Event) (s : State) : State := { s with out := Output.insert e s.out }

/-- Emit a list of events. -/
def State.emitAll : List Event → State → State
  | [], s => s
  | e :: es, s => State.emitAll es (s.emit e)

/-- The block's state once the reset input has been asserted (R110, R111): a new run, in which only the inputs that
come after the reset are still to be performed. -/
def State.applyReset (rest : List Input) : State := { State.reset with pending := rest }

/-- The state with `t` presented as the next transaction. -/
def State.present (t : Transaction) (s : State) : State :=
  { s with pending := .transaction t :: s.pending }

end Sys2Proof.Machine
end

