-- ==== Sys2Proof/Machine/Flags.lean ====
section
/-! DEFINITION. The block has no flags or condition codes, and no operation sets one (R17). Its one status bit that
software reads is DRAW, through CTRL (R20). -/

namespace Sys2Proof.Machine

/-- CTRL as the HOST reads it: `zext_32(DRAW)`, so bits 31:1 read as 0 (R20, R82). -/
def ctrlValue (s : State) : Word := (BitVec.ofBool s.draw).setWidth 32

end Sys2Proof.Machine
end

