-- ==== Sys2Proof/Machine/Operands.lean ====
section
/-! DEFINITION. The coordinate front end: a binary32 field, its value (R52) and its truncation (R63). -/

namespace Sys2Proof.Machine

/-- The sign `f[31]` (R52). -/
def f32Sign (f : Word) : Bool := f.getLsbD 31

/-- The biased exponent `f[30:23]` (R52). -/
def f32Exponent (f : Word) : Nat := (f.extractLsb' 23 8).toNat

/-- The fraction `f[22:0]` (R52). -/
def f32Fraction (f : Word) : Nat := (f.extractLsb' 0 23).toNat

/-- The value of a binary32 field; `none` for an infinity or a NaN (R52). -/
def f32Value (f : Word) : Option ℚ :=
  let sign : ℚ := if f32Sign f then -1 else 1
  if f32Exponent f = 255 then none
  else if f32Exponent f = 0 then some (sign * f32Fraction f * 2 ^ (-149 : ℤ))
  else some (sign * (2 ^ 23 + f32Fraction f) * 2 ^ ((f32Exponent f : ℤ) - 150))

/-- A field that R63 faults and R92 names: an infinity, a NaN, or a negative value that is not zero. -/
abbrev F32Invalid (f : Word) : Prop :=
  f32Exponent f = 255 ∨ (f32Sign f = true ∧ (f32Exponent f ≠ 0 ∨ f32Fraction f ≠ 0))

/-- `trunc32` (R63): the exact floor of a finite value of at least 0 (and of −0.0), else F_COORD_INVALID. -/
def trunc32 (f : Word) : Except FaultRecord Nat :=
  let e := f32Exponent f
  let m := f32Fraction f
  if e = 255 then .error (.coordInvalid f)
  else if f32Sign f = true ∧ (e ≠ 0 ∨ m ≠ 0) then .error (.coordInvalid f)
  else if e < 127 then .ok 0
  else if e ≤ 150 then .ok ((2 ^ 23 + m) >>> (150 - e))
  else .ok ((2 ^ 23 + m) <<< (e - 150))

end Sys2Proof.Machine
end

