-- ==== Sys2Proof/Machine/SampleDecode.lean ====
section
/-! DEFINITION. DECODE and its datapath (40_sample_decode.md): integer_divider_and_bit_indexer,
parallel_pixel_unpacker and the colour expander. -/

namespace Sys2Proof.Machine

/-- The defined domain (R64). The products are mathematical and do not wrap. -/
def inDomain (s px py : Nat) : Bool :=
  decide (px < Config.width * s) && decide (py < Config.height * s) &&
    decide (px < 2 ^ 32) && decide (py < 2 ^ 32)

/-- The divider: `lx = px / s`, and `ly = py / s` with the same circuit (R65). -/
def divide (p s : Nat) : Nat := p / s

/-- The word index (R66). -/
def wordIndex (lx ly : Nat) : Nat := lx / Config.bitsPerWord + Config.wordsPerRow * ly

/-- The bit position (R67). -/
def bitPosition (lx : Nat) : Nat := (Config.bitsPerWord - 1) - lx % Config.bitsPerWord

/-- `BmpFetch` (R69): the word, or F_BITMAP_UNSET if it is ⊥. -/
def bmpFetch (m : Memory) (idx : Nat) : Except FaultRecord Word :=
  match m.read idx with
  | some w => .ok w
  | none => .error (.bitmapUnset idx)

/-- The bit test: `((word >> bitPos) & 1) ≠ 0` (R70). -/
def bitTest (w : Word) (pos : Nat) : Bool := ((w >>> pos) &&& 1) != 0

/-- The colour expander (R72). -/
def colour (lit : Bool) : Word := if lit then 0xFFFFFFFF else 0x000000FF

/-- The event of a sample at `(px, py)` whose tested bit is `lit` (R53). -/
def mkEvent (px py : Nat) (lit : Bool) : Event :=
  ⟨BitVec.ofNat 32 px, BitVec.ofNat 32 py, lit, colour lit⟩

/-- From the truncated coordinates on: range test, divide, index, fetch, test, colour (R64 to R72). -/
def unpackPixel (m : Memory) (s px py : Nat) : Except FaultRecord Event :=
  if inDomain s px py = true then
    match bmpFetch m (wordIndex (divide px s) (divide py s)) with
    | .error r => .error r
    | .ok w => .ok (mkEvent px py (bitTest w (bitPosition (divide px s))))
  else .error (.coordRange px py)

/-- One lane's evaluation of one sample (R62, R71): its event, or the first fault in the order of R102. The lane is
named because R71 has a lane do it; its number changes nothing. SCALE is never ⊥ while DRAW = 1 (R62); where a state
no run reaches says otherwise, the read of ⊥ faults F_SCALE_UNSET (DESIGN CHOICE, safe, log 10). -/
def laneEvaluate (_lane : Fin Config.lanes) (s : State) (x y : Word) : Except FaultRecord Event :=
  if s.draw = false then .error (.noDraw x y)
  else
    match s.scale with
    | none => .error .scaleUnset
    | some sc =>
      match trunc32 x with
      | .error r => .error r
      | .ok px =>
        match trunc32 y with
        | .error r => .error r
        | .ok py => unpackPixel s.bmp sc.toNat px py

/-- The sample's result on whichever lane takes it (R71). -/
def sampleResult (s : State) (x y : Word) : Except FaultRecord Event :=
  laneEvaluate (Config.laneFor s.out.length) s x y

/-- DECODE (R62), one atomic step (R71): it appends one event to OUT, or faults and emits nothing. -/
def execDecode (x y : Word) (s : State) : Result :=
  match sampleResult s x y with
  | .error r => raise r s
  | .ok e => .next (s.emit e)

/-- The events of a list of accepted samples, or the first fault among them. -/
def collectEvents (s : State) : List (BitVec 64) → Except FaultRecord (List Event)
  | [] => .ok []
  | w :: ws =>
    match sampleResult s (sampleX w) (sampleY w) with
    | .error r => .error r
    | .ok e =>
      match collectEvents s ws with
      | .error r => .error r
      | .ok es => .ok (e :: es)

end Sys2Proof.Machine
end

