-- ==== Sys2Proof/Machine/HostConfig.lean ====
section
/-! DEFINITION. The seven host-port operations and the reserved transaction (41_host_config.md). Each checks its
faults in the order of R102. -/

namespace Sys2Proof.Machine

/-- SCALE_RD (R81). -/
def execScaleRd (s : State) : Result :=
  match s.scale with
  | none => raise (.unsetRead scaleWADDR) s
  | some v => .next (s.respond v)

/-- CTRL_RD (R82). -/
def execCtrlRd (s : State) : Result := .next (s.respond (ctrlValue s))

/-- BMP_RD (R86). -/
def execBmpRd (i : BitVec 6) (s : State) : Result :=
  match s.bmp.read i.toNat with
  | none => raise (.unsetRead (bmpWADDR i)) s
  | some v => .next (s.respond v)

/-- SCALE_WR (R80). -/
def execScaleWr (v : Word) (s : State) : Result :=
  if s.draw = true then raise (.writeInDraw scaleWADDR) s
  else if v = 0 then raise (.scaleZero v) s
  else .next (s.setScale v)

/-- DRAW_END (R84): the wait until INFLIGHT is empty delivers the event of every accepted sample, then DRAW is
cleared, all in one step (D11). A sample that faults while it drains faults the run (DESIGN CHOICE, safe, log 11). -/
def execDrawEnd (s : State) : Result :=
  if s.draw = false then raise .drawIdle s
  else
    match collectEvents s s.inflight with
    | .error r => raise r s
    | .ok es => .next { (s.emitAll es).setDraw false with inflight := [] }

/-- DRAW_BEGIN (R83). -/
def execDrawBegin (s : State) : Result :=
  if s.draw = true then raise .drawNested s
  else
    match s.scale with
    | none => raise .scaleUnset s
    | some _ => .next (s.setDraw true)

/-- BMP_WR (R85). -/
def execBmpWr (i : BitVec 6) (v : Word) (s : State) : Result :=
  if s.draw = true then raise (.writeInDraw (bmpWADDR i)) s
  else .next (s.setBmp i.toNat v)

/-- The reserved transaction (R87): F_RESERVED with the 40-bit pattern, and nothing else. -/
def execReserved (e : DecodeError) (s : State) : Result := raise (.reserved e.pattern) s

end Sys2Proof.Machine
end

