-- ==== Sys2Proof/Machine/Dispatch.lean ====
section
/-! DEFINITION. The meaning of every operation of the opcode map, one arm per constructor. -/

namespace Sys2Proof.Machine

def exec (i : Instr) (s : State) : Host.Outcome State Fault Refusal :=
  match i with
  | .scaleRd => Sys2Proof.Machine.execScaleRd s
  | .ctrlRd => Sys2Proof.Machine.execCtrlRd s
  | .bmpRd n => Sys2Proof.Machine.execBmpRd n s
  | .scaleWr v => Sys2Proof.Machine.execScaleWr v s
  | .drawEnd => Sys2Proof.Machine.execDrawEnd s
  | .drawBegin => Sys2Proof.Machine.execDrawBegin s
  | .bmpWr n v => Sys2Proof.Machine.execBmpWr n v s
  | .decode x y => Sys2Proof.Machine.execDecode x y s

end Sys2Proof.Machine
end

