-- ==== Sys2Proof/Machine/Port.lean ====
section
/-! DEFINITION. How the block takes its inputs, given the meaning of a decoded operation: it does only what its ports
present, one input at a time, in the order they are performed (R16, R40). -/

namespace Sys2Proof.Machine

/-- Perform one transaction: decode it, then run the operation, or take the reserved transaction's fault, which is
decided at decode, before any other check (R54, R87, R102). -/
def performTransaction (run : Instr → State → Result) (t : Transaction) (s : State) : Result :=
  match decode t with
  | .ok i => run i s
  | .error e => execReserved e s

/-- One step. The reset input, when it is the next one, is taken in any state and starts a new run (R110, R111). A
faulted run has no other step (R89, R105); so a reset listed behind a transaction that the faulted run never performs is
not reached, where the spec leaves open what becomes of inputs between a fault and a later reset (DESIGN CHOICE,
log 18). Otherwise the next transaction is performed, and with nothing presented the block does nothing (R16,
log 3). -/
def stepPort (run : Instr → State → Result) (s : State) : Result :=
  match s.pending, s.fault with
  | .reset :: rest, _ => .next (State.applyReset rest)
  | _, some r => .fault (.faultedRun r)
  | .transaction t :: rest, none => performTransaction run t { s with pending := rest }
  | [], none => .next s

/-- Present a table word as the next transaction; a word longer than any transaction is not presented. -/
def presentTableWord (nbits w : Nat) (s : State) : State :=
  match tableTransaction nbits w with
  | none => s
  | some t => s.present t

end Sys2Proof.Machine
end

