-- ==== Sys2Proof/Machine/Step.lean ====
section
/-! DEFINITION. One step of the block, and the state with a given transaction presented next. -/

namespace Sys2Proof.Machine

/-- One step (see `stepPort`). -/
def step (s : State) : Host.Outcome State Fault Refusal := stepPort exec s

/-- `s` with the table word presented as the very next transaction. The block has no program and no fetch (R16): what
it performs is what its ports present, so this stands for an agent presenting the transaction (log 2). -/
def State.withFetchWord (s : State) (nbits w : Nat) : State := presentTableWord nbits w s

end Sys2Proof.Machine
end

