-- ==== Sys2Proof/Machine/Pseudo.lean ====
section
/-! DEFINITION. The pseudo-instructions of the transaction notation and their expansions (R61). They are the notation's,
not the hardware's: each is a list of the eight operations. -/

namespace Sys2Proof.Machine

/-- `BMP_FILL v`: 64 writes, in increasing index order (R61). -/
def bmpFill (v : Word) : List Instr :=
  (List.range Config.bitmapWords).map fun i => .bmpWr (BitVec.ofNat 6 i) v

/-- `FRAME w0, …, w63`: one write per word, in increasing index order (R61). -/
def frame (w : Fin 64 → Word) : List Instr :=
  (List.finRange 64).map fun i : Fin 64 => .bmpWr (BitVec.ofNat 6 i.val) (w i)

/-- The binary32 encoding of `p + 0.5`, the centre of pixel `p`; none where it has no exact encoding and so no literal
(R60, R61). With `n = 2·p + 1 < 2^24` and `2^e ≤ n < 2^(e+1)`, the value is `n·2^(23−e) × 2^((126+e)−150)` (R52). -/
def f32Centre (p : Nat) : Option Word :=
  if p < 2 ^ 23 then
    let n := 2 * p + 1
    let e := n.log2
    some (BitVec.ofNat 32 ((126 + e) * 2 ^ 23 + (n * 2 ^ (23 - e) - 2 ^ 23)))
  else none

/-- `PIXEL px, py`: DECODE at the centre of the physical pixel (R61). -/
def pixel (px py : Nat) : Option Instr :=
  match f32Centre px, f32Centre py with
  | some x, some y => some (.decode x y)
  | _, _ => none

/-- `DRAW_ALL` at scale `s`: DRAW_BEGIN, PIXEL for every physical pixel row by row, DRAW_END (R61). -/
def drawAll (s : Nat) : Option (List Instr) :=
  match (List.range (Config.height * s)).mapM
      (fun py => (List.range (Config.width * s)).mapM fun px => pixel px py) with
  | some rows => some (.drawBegin :: rows.flatten ++ [.drawEnd])
  | none => none

end Sys2Proof.Machine
end

