-- ==== Sys2Proof/Safety.lean ====
section
/-! DEFINITION. What claims are stated in: a successful end of a run (R123), the invariant of the block, and the
result of presenting several samples one after another. -/

namespace Sys2Proof.Machine

/-- Is the input a HOST transaction? -/
def isHostInput : Input → Bool
  | .transaction (.host _) => true
  | .transaction (.sample _) => false
  | .reset => false

/-- A run has ended successfully (R123). R123 does not say whether a HOST transaction listed behind a reset input that is
still to be taken, which belongs to the next run (R110), is pending for this one; here it counts as pending (DESIGN CHOICE,
log 17). -/
structure SuccessfulEnd (s : State) : Prop where
  noFault : s.fault = none
  noDraw : s.draw = false
  noHostPending : ∀ i ∈ s.pending, isHostInput i = false

/-- An event as R72 allows it: its colour is the colour of its bit. -/
def Event.Coloured (e : Event) : Prop := e.rgba = colour e.lit

/-- The invariant of the block. -/
structure BlockInv (s : State) : Prop where
  /-- SCALE never holds an illegal value (R18). -/
  scaleLegal : s.scale ≠ some 0
  /-- SCALE is not ⊥ while a draw call is in flight (R62, R83). -/
  scaleSet : s.draw = true → s.scale ≠ none
  /-- INFLIGHT is empty between steps (R25). -/
  drained : s.inflight = []
  /-- The buffer is canonical, so every index is below 64 (R22). -/
  bmpWf : Memory.wf s.bmp
  /-- OUT is canonical. -/
  outWf : Output.wf s.out
  /-- Only black and white were emitted, each for its bit (R72). -/
  coloured : ∀ e ∈ s.out, Event.Coloured e

/-- The state after `raise Fault(code, info)`, in the words of R89: FAULT is set to `r` provided it was none, and
nothing else changes. -/
def State.afterFault (r : FaultRecord) (s : State) : State := { s with fault := some (s.fault.getD r) }

/-- `t` is `s` with one more event `e` in OUT and nothing else changed (R27, R62). -/
def GainsEvent (s t : State) (e : Event) : Prop :=
  (∀ f, t.out.count f = s.out.count f + if f = e then 1 else 0) ∧ t = { s with out := t.out }

/-- The next input is not the reset input. -/
def NotReset (s : State) : Prop := ∀ rest, s.pending ≠ .reset :: rest

/-- The fault codes an operation may raise (R90 to R100, "Raised by"). -/
def faultCodes : Instr → List Nat
  | .scaleRd => [11]
  | .ctrlRd => []
  | .bmpRd _ => [11]
  | .scaleWr _ => [1, 7]
  | .drawEnd => [9]
  | .drawBegin => [2, 8]
  | .bmpWr _ _ => [7]
  | .decode _ _ => [3, 4, 5, 6]

/-- DECODE the coordinates of a list one after another. -/
def decodeAll : List (Word × Word) → State → Result
  | [], s => .next s
  | c :: cs, s =>
    match exec (.decode c.1 c.2) s with
    | .next t => decodeAll cs t
    | .fault f => .fault f
    | .refused r => .refused r

end Sys2Proof.Machine
end

