-- ==== Sys2Proof/Certificates/Slice0/Obligations.lean ====
section
/-! DEFINITION. The statements for the provers, one `def Obligations.<Name> : Prop` each; OBLIGATIONS.json says what
each formalises. A conclusion `exec i s = .next t` says that the operation completes. -/

open Sys2Proof Sys2Proof.Machine

/-! ### Encoding -/

/-- Decoding an encoded operation gives it back, for every operand value (R48 to R51, R55). -/
def Obligations.DecodeEncodeRoundTrip : Prop :=
  ∀ i : Instr, i.WellFormed = true → decode (encode i) = .ok i

/-- Encoding a decoded transaction gives it back; a read comes back with WDATA = 0, its canonical encoding (R50). -/
def Obligations.EncodeDecodeCanonical : Prop :=
  (∀ h i, decodeHost h = .ok i →
    encode i = .host (if h.getLsbD 39 = true then h else h &&& 0xFF00000000#40)) ∧
  (∀ w, encode (decodeSample w) = .sample w)

/-- The decoder follows the opcode map of R55 under each row's mask, at most one row matches, a word that matches none is
reserved, and every sample is DECODE (the spec's own inference from R55, "derived" in R54). -/
def Obligations.HostDecoderFollowsOpcodeMap : Prop :=
  (∀ h : BitVec 40,
    (h &&& 0xFF00000000#40 = 0x0000000000#40 ↔ decodeHost h = .ok .scaleRd) ∧
    (h &&& 0xFF00000000#40 = 0x0100000000#40 ↔ decodeHost h = .ok .ctrlRd) ∧
    (h &&& 0xC000000000#40 = 0x4000000000#40 ↔ decodeHost h = .ok (.bmpRd (h.extractLsb' 32 6))) ∧
    (h &&& 0xFF00000000#40 = 0x8000000000#40 ↔ decodeHost h = .ok (.scaleWr (h.extractLsb' 0 32))) ∧
    (h &&& 0xFFFFFFFFFF#40 = 0x8100000000#40 ↔ decodeHost h = .ok .drawEnd) ∧
    (h &&& 0xFFFFFFFFFF#40 = 0x8100000001#40 ↔ decodeHost h = .ok .drawBegin) ∧
    (h &&& 0xC000000000#40 = 0xC000000000#40 ↔
      decodeHost h = .ok (.bmpWr (h.extractLsb' 32 6) (h.extractLsb' 0 32))) ∧
    ((∀ row ∈ hostRows, row.matchesWord h = false) ↔ ∃ e, decodeHost h = .error e) ∧
    (hostRows.filter (·.matchesWord h)).length ≤ 1) ∧
  (∀ w : BitVec 64, decode (.sample w) = .ok (.decode (w.extractLsb' 32 32) (w.extractLsb' 0 32)))

/-- The reserved encodings are exactly those R56 lists; each raises F_RESERVED, code 10, with the 40-bit pattern and
changes nothing else, whatever the state (R87, R99). No sample is reserved. -/
def Obligations.ReservedTransactionsFault : Prop :=
  (∀ h : BitVec 40, (∃ e, decodeHost h = .error e) ↔
    (2 ≤ h.toNat / 2 ^ 32 % 2 ^ 7 ∧ h.toNat / 2 ^ 32 % 2 ^ 7 ≤ 63) ∨
    (h.toNat / 2 ^ 39 = 1 ∧ h.toNat / 2 ^ 32 % 2 ^ 7 = 1 ∧ h.toNat % 2 ^ 32 ≠ 0 ∧ h.toNat % 2 ^ 32 ≠ 1)) ∧
  (∀ h s, (∃ e, decodeHost h = .error e) →
    performTransaction exec (.host h) s = .next (s.afterFault (.reserved h))) ∧
  (∀ h, (FaultRecord.reserved h).code = 10) ∧
  (∀ w, ∃ i, decode (.sample w) = .ok i)

/-- Words written out from R55, R50 and 95_test_vectors.md decode to the operations they stand for. -/
def Obligations.WrittenOutWordsDecode : Prop :=
  decode (.host 0x8000000004#40) = .ok (.scaleWr 4) ∧
  decode (.host 0x00DEADBEEF#40) = .ok .scaleRd ∧
  decode (.host 0x0100000000#40) = .ok .ctrlRd ∧
  decode (.host 0x8100000001#40) = .ok .drawBegin ∧
  decode (.host 0x8100000000#40) = .ok .drawEnd ∧
  decode (.host 0xC080000000#40) = .ok (.bmpWr 0 0x80000000) ∧
  decode (.host 0xFF00000000#40) = .ok (.bmpWr 63 0) ∧
  decode (.host 0x4500000000#40) = .ok (.bmpRd 5) ∧
  decode (.sample 0x4301800040600000#64) = .ok (.decode 0x43018000 0x40600000)

/-! ### The host operations, one rule each -/

/-- R80: the encoding, the two faults in their order, and the write. -/
def Obligations.ScaleWriteFollowsItsRule : Prop :=
  (∀ h : BitVec 40, h &&& 0xFF00000000#40 = 0x8000000000#40 →
    decode (.host h) = .ok (.scaleWr (h.extractLsb' 0 32))) ∧
  ∀ (v : Word) (s : State),
    (s.draw = true → exec (.scaleWr v) s = .next (s.afterFault (.writeInDraw 0))) ∧
    (s.draw = false → v = 0 → exec (.scaleWr v) s = .next (s.afterFault (.scaleZero 0))) ∧
    (s.draw = false → v ≠ 0 → exec (.scaleWr v) s = .next { s with scale := some v })

/-- R81: the encoding with WDATA ignored, the fault of ⊥, and the value returned, whatever DRAW is. -/
def Obligations.ScaleReadFollowsItsRule : Prop :=
  (∀ h : BitVec 40, h &&& 0xFF00000000#40 = 0x0000000000#40 → decode (.host h) = .ok .scaleRd) ∧
  ∀ s : State,
    (s.scale = none → exec .scaleRd s = .next (s.afterFault (.unsetRead 0))) ∧
    (∀ v, s.scale = some v → exec .scaleRd s = .next { s with rdata := s.rdata ++ [v] })

/-- R82: the encoding with WDATA ignored, and the value returned: DRAW in bit 0, bits 31:1 zero. It never faults. -/
def Obligations.CtrlReadFollowsItsRule : Prop :=
  (∀ h : BitVec 40, h &&& 0xFF00000000#40 = 0x0100000000#40 → decode (.host h) = .ok .ctrlRd) ∧
  ∀ s : State, exec .ctrlRd s = .next { s with rdata := s.rdata ++ [if s.draw = true then 1 else 0] }

/-- R83: the encoding, the two faults in their order, the draw call opened, and the legal empty draw call. -/
def Obligations.DrawBeginFollowsItsRule : Prop :=
  decode (.host 0x8100000001#40) = .ok .drawBegin ∧
  ∀ s : State,
    (s.draw = true → exec .drawBegin s = .next (s.afterFault .drawNested)) ∧
    (s.draw = false → s.scale = none → exec .drawBegin s = .next (s.afterFault .scaleUnset)) ∧
    (s.draw = false → s.scale ≠ none → exec .drawBegin s = .next { s with draw := true }) ∧
    (s.draw = false → s.scale ≠ none → s.inflight = [] →
      ∃ t, exec .drawBegin s = .next t ∧ exec .drawEnd t = .next s)

/-- R84: the encoding, the fault, and the close of a draw call: it answers with INFLIGHT empty, DRAW 0, and the event of
every accepted sample in OUT, nothing else changed; with INFLIGHT empty, only DRAW changes. The event of an accepted
sample is the one DECODE of it would emit, sample by sample, and `collectEvents` answers those events and no others. That
the wait's whole effect falls in one step, when INFLIGHT is not empty, is the model's (log 8). -/
def Obligations.DrawEndFollowsItsRule : Prop :=
  decode (.host 0x8100000000#40) = .ok .drawEnd ∧
  (∀ s : State, s.draw = false → exec .drawEnd s = .next (s.afterFault .drawIdle)) ∧
  (∀ s : State, s.draw = true → s.inflight = [] → exec .drawEnd s = .next { s with draw := false }) ∧
  (∀ (s : State) (es : List Event), collectEvents s s.inflight = .ok es ↔
    List.Forall₂ (fun w e => ∃ t, exec (.decode (w.extractLsb' 32 32) (w.extractLsb' 0 32)) s = .next t ∧
      GainsEvent s t e) s.inflight es) ∧
  (∀ (s : State) (es : List Event), s.draw = true →
    List.Forall₂ (fun w e => ∃ t, exec (.decode (w.extractLsb' 32 32) (w.extractLsb' 0 32)) s = .next t ∧
      GainsEvent s t e) s.inflight es →
    ∃ o : Output, exec .drawEnd s = .next { s with draw := false, inflight := [], out := o } ∧
      ∀ f, o.count f = s.out.count f + es.count f)

/-- R85: the encoding, the fault, and the write: the word written reads back, every other word reads as before, and no
other state changes. -/
def Obligations.BitmapWriteFollowsItsRule : Prop :=
  (∀ h : BitVec 40, h &&& 0xC000000000#40 = 0xC000000000#40 →
    decode (.host h) = .ok (.bmpWr (h.extractLsb' 32 6) (h.extractLsb' 0 32))) ∧
  ∀ (i : BitVec 6) (v : Word) (s : State),
    (s.draw = true → exec (.bmpWr i v) s = .next (s.afterFault (.writeInDraw (BitVec.ofNat 7 (64 + i.toNat))))) ∧
    (s.draw = false → ∃ m : Memory, exec (.bmpWr i v) s = .next { s with bmp := m } ∧
      m.read i.toNat = some v ∧ ∀ j, j ≠ i.toNat → m.read j = s.bmp.read j)

/-- R86: the encoding with WDATA ignored, the fault of ⊥, and the value returned, whatever DRAW is. -/
def Obligations.BitmapReadFollowsItsRule : Prop :=
  (∀ h : BitVec 40, h &&& 0xC000000000#40 = 0x4000000000#40 →
    decode (.host h) = .ok (.bmpRd (h.extractLsb' 32 6))) ∧
  ∀ (i : BitVec 6) (s : State),
    (s.bmp.read i.toNat = none →
      exec (.bmpRd i) s = .next (s.afterFault (.unsetRead (BitVec.ofNat 7 (64 + i.toNat))))) ∧
    (∀ v, s.bmp.read i.toNat = some v → exec (.bmpRd i) s = .next { s with rdata := s.rdata ++ [v] })

/-- A read right after a write returns the value written; after a bitmap write, a read of another word returns what it
would have returned before (R40, R85, R86). -/
def Obligations.ReadAfterWriteReturnsTheValue : Prop :=
  (∀ (v : Word) (s : State), s.draw = false → v ≠ 0 →
    ∃ t u, exec (.scaleWr v) s = .next t ∧ exec .scaleRd t = .next u ∧ u.rdata = s.rdata ++ [v]) ∧
  (∀ (i : BitVec 6) (v : Word) (s : State), s.draw = false →
    ∃ t u, exec (.bmpWr i v) s = .next t ∧ exec (.bmpRd i) t = .next u ∧ u.rdata = s.rdata ++ [v]) ∧
  (∀ (i j : BitVec 6) (v w : Word) (s : State), s.draw = false → j ≠ i → s.bmp.read j.toNat = some w →
    ∃ t u, exec (.bmpWr i v) s = .next t ∧ exec (.bmpRd j) t = .next u ∧ u.rdata = s.rdata ++ [w])

/-- R38: reads change no state and repeat their value; a write of SCALE or of a BMP word stores the value, leaves every
other word and register as it was, and repeated changes nothing more; a DRAW_BEGIN begins and a DRAW_END ends the draw
call, and a second one in a row faults. -/
def Obligations.SideEffectsOfHostOperations : Prop :=
  (∀ (i : Instr) (s t u : State), (i = .scaleRd ∨ i = .ctrlRd ∨ ∃ n, i = .bmpRd n) →
    s.fault = none → exec i s = .next t → t.fault = none → exec i t = .next u →
    ∃ v, t = { s with rdata := s.rdata ++ [v] } ∧ u = { s with rdata := s.rdata ++ [v, v] }) ∧
  (∀ (x y : Word) (s t : State), exec (.decode x y) s = .next t →
    t.scale = s.scale ∧ t.bmp = s.bmp ∧ t.draw = s.draw) ∧
  (∀ (v : Word) (s : State), s.draw = false → v ≠ 0 →
    ∃ t, exec (.scaleWr v) s = .next t ∧ t = { s with scale := some v } ∧ exec (.scaleWr v) t = .next t) ∧
  (∀ (i : BitVec 6) (v : Word) (s : State), s.draw = false →
    ∃ t, exec (.bmpWr i v) s = .next t ∧ t = { s with bmp := t.bmp } ∧ t.bmp.read i.toNat = some v ∧
      (∀ j, j ≠ i.toNat → t.bmp.read j = s.bmp.read j) ∧ exec (.bmpWr i v) t = .next t) ∧
  (∀ s : State, s.draw = false → s.scale ≠ none → s.fault = none →
    exec .drawBegin s = .next { s with draw := true } ∧
      exec .drawBegin { s with draw := true } = .next { s with draw := true, fault := some .drawNested }) ∧
  (∀ s : State, s.draw = true → s.inflight = [] → s.fault = none →
    exec .drawEnd s = .next { s with draw := false } ∧
      exec .drawEnd { s with draw := false } = .next { s with draw := false, fault := some .drawIdle })

/-! ### The coordinate front end and the datapath -/

/-- R63: a field is faulted exactly when it is not a finite value of at least 0 (−0.0 counts as 0), with the field as
info; for every other field the result is the exact floor of its value. -/
def Obligations.TruncationIsTheExactFloor : Prop :=
  ∀ f : Word,
    (F32Invalid f ↔ f32Value f = none ∨ ∃ q, f32Value f = some q ∧ q < 0) ∧
    (F32Invalid f → trunc32 f = .error (.coordInvalid f)) ∧
    (∀ q, f32Value f = some q → 0 ≤ q → trunc32 f = .ok ⌊q⌋₊)

/-- R61: the sample that PIXEL p takes is at p + 0.5, and it truncates to p; it exists for every p below 2^23, where
p + 0.5 has an exact binary32 encoding. -/
def Obligations.PixelCentreTruncatesToItsPixel : Prop :=
  ∀ p : Nat,
    (p < 2 ^ 23 ↔ ∃ f, f32Centre p = some f) ∧
    (∀ f, f32Centre p = some f → f32Value f = some ((p : ℚ) + 1 / 2) ∧ trunc32 f = .ok p)

/-- On the domain of R64 the logical coordinates, the word index and the bit position fit their widths, the range tests
before and after the division agree (the spec's own inference, "derived" in R73), and the half-row selects the word
(R66). -/
def Obligations.DatapathValuesFitTheirWidths : Prop :=
  ∀ s px py : Nat, 1 ≤ s →
    (px < 64 * s ↔ divide px s < 64) ∧ (py < 32 * s ↔ divide py s < 32) ∧
    (inDomain s px py = true →
      divide px s ≤ 63 ∧ divide py s ≤ 31 ∧ bitPosition (divide px s) ≤ 31 ∧
      wordIndex (divide px s) (divide py s) ≤ 63 ∧
      (divide px s ≤ 31 → wordIndex (divide px s) (divide py s) = 2 * divide py s) ∧
      (32 ≤ divide px s → wordIndex (divide px s) (divide py s) = 2 * divide py s + 1))

/-- The same computation in bit fields (the spec's own inference, "derived" in R68). -/
def Obligations.IndexerInBitFields : Prop :=
  ∀ lx ly : Nat, lx < 64 → ly < 32 →
    lx / 32 = ((BitVec.ofNat 6 lx).extractLsb' 5 1).toNat ∧
    lx % 32 = ((BitVec.ofNat 6 lx).extractLsb' 0 5).toNat ∧
    BitVec.ofNat 6 (wordIndex lx ly) = BitVec.ofNat 5 ly ++ (BitVec.ofNat 6 lx).extractLsb' 5 1 ∧
    BitVec.ofNat 5 (bitPosition lx) = ~~~((BitVec.ofNat 6 lx).extractLsb' 0 5) ∧
    BitVec.ofNat 5 (bitPosition lx) = 31#5 ^^^ (BitVec.ofNat 6 lx).extractLsb' 0 5

/-- R62: with a draw call in flight, both coordinates valid and in the domain, and the fetched word written, DECODE
completes: OUT gains the one event with the exact coordinates, the tested bit and its colour, and nothing else changes. -/
def Obligations.DecodeEmitsTheEventOfItsPixel : Prop :=
  ∀ (x y sc w : Word) (px py : Nat) (s : State),
    s.draw = true → s.scale = some sc → trunc32 x = .ok px → trunc32 y = .ok py →
    px < 64 * sc.toNat → py < 32 * sc.toNat → px < 2 ^ 32 → py < 2 ^ 32 →
    s.bmp.read (px / sc.toNat / 32 + 2 * (py / sc.toNat)) = some w →
    ∃ (t : State) (e : Event), exec (.decode x y) s = .next t ∧ GainsEvent s t e ∧
      e.px.toNat = px ∧ e.py.toNat = py ∧
      e.lit = w.getLsbD (31 - px / sc.toNat % 32) ∧
      e.rgba = if w.getLsbD (31 - px / sc.toNat % 32) = true then 0xFFFFFFFF else 0x000000FF

/-- The faults of DECODE in the order of R102, each with the info of R92 to R95. -/
def Obligations.DecodeFaultsInOrder : Prop :=
  ∀ (x y : Word) (s : State),
    (s.draw = false → exec (.decode x y) s = .next (s.afterFault (.noDraw x y))) ∧
    (∀ sc : Word, s.draw = true → s.scale = some sc →
      (F32Invalid x → exec (.decode x y) s = .next (s.afterFault (.coordInvalid x))) ∧
      (¬ F32Invalid x → F32Invalid y → exec (.decode x y) s = .next (s.afterFault (.coordInvalid y))) ∧
      (∀ px py : Nat, trunc32 x = .ok px → trunc32 y = .ok py →
        (64 * sc.toNat ≤ px ∨ 32 * sc.toNat ≤ py ∨ 2 ^ 32 ≤ px ∨ 2 ^ 32 ≤ py →
          exec (.decode x y) s = .next (s.afterFault (.coordRange px py))) ∧
        (px < 64 * sc.toNat → py < 32 * sc.toNat → px < 2 ^ 32 → py < 2 ^ 32 →
          s.bmp.read (px / sc.toNat / 32 + 2 * (py / sc.toNat)) = none →
          exec (.decode x y) s =
            .next (s.afterFault (.bitmapUnset (px / sc.toNat / 32 + 2 * (py / sc.toNat)))))))

/-- The spec's own inference, "derived" in R74: the pixels of one logical pixel are an s × s block, and all samples in it have one bit and one colour (or all
fault on the same unwritten word). -/
def Obligations.ScalingProducesUniformBlocks : Prop :=
  (∀ sc l p : Nat, 1 ≤ sc → (p / sc = l ↔ sc * l ≤ p ∧ p < sc * l + sc)) ∧
  ∀ (s : State) (sc x y x' y' : Word) (px py px' py' : Nat),
    s.draw = true → s.scale = some sc →
    trunc32 x = .ok px → trunc32 y = .ok py → trunc32 x' = .ok px' → trunc32 y' = .ok py' →
    inDomain sc.toNat px py = true → inDomain sc.toNat px' py' = true →
    px / sc.toNat = px' / sc.toNat → py / sc.toNat = py' / sc.toNat →
    (∃ t t' e e', exec (.decode x y) s = .next t ∧ exec (.decode x' y') s = .next t' ∧
      GainsEvent s t e ∧ GainsEvent s t' e' ∧ e.lit = e'.lit ∧ e.rgba = e'.rgba) ∨
    (∃ n, exec (.decode x y) s = .next (s.afterFault (.bitmapUnset n)) ∧
      exec (.decode x' y') s = .next (s.afterFault (.bitmapUnset n)))

/-- The spec's own inference, "derived" in R75: the event or the fault of DECODE is a function of X, Y, DRAW, SCALE and BMP alone, and DECODE changes nothing
but OUT (or, when it faults, FAULT). -/
def Obligations.DecodeIsPure : Prop :=
  ∀ (x y : Word) (s s' : State), s.draw = s'.draw → s.scale = s'.scale → s.bmp = s'.bmp →
    (∃ e t t', exec (.decode x y) s = .next t ∧ exec (.decode x y) s' = .next t' ∧
      GainsEvent s t e ∧ GainsEvent s' t' e) ∨
    (∃ r, exec (.decode x y) s = .next (s.afterFault r) ∧ exec (.decode x y) s' = .next (s'.afterFault r))

/-- DECODE reads one word of the bitmap: states that agree on DRAW, SCALE and the word at the sample's index give the
same event or the same fault (R23, R62, R69). -/
def Obligations.DecodeReadsOneBitmapWord : Prop :=
  ∀ (x y sc : Word) (px py : Nat) (s s' : State),
    s.draw = s'.draw → s.scale = some sc → s'.scale = some sc → trunc32 x = .ok px → trunc32 y = .ok py →
    s.bmp.read (px / sc.toNat / 32 + 2 * (py / sc.toNat)) =
      s'.bmp.read (px / sc.toNat / 32 + 2 * (py / sc.toNat)) →
    (∃ e t t', exec (.decode x y) s = .next t ∧ exec (.decode x y) s' = .next t' ∧
      GainsEvent s t e ∧ GainsEvent s' t' e) ∨
    (∃ r, exec (.decode x y) s = .next (s.afterFault r) ∧ exec (.decode x y) s' = .next (s'.afterFault r))

/-- The order in which samples are decoded does not matter: if the samples of a list decode one after another without a
fault, so do those of every rearrangement of the list, to the very same state (the spec's own inference, "derived" in R42
and R71). So no number of lanes and no schedule of them changes OUT. That equal multisets are equal states is the model's
canonical form (log 6). -/
def Obligations.DecodeOrderDoesNotMatter : Prop :=
  ∀ (cs ds : List (Word × Word)) (s t : State), cs.Perm ds →
    decodeAll cs s = .next t → t.fault = none → decodeAll ds s = .next t

/-- Bit b of BMP[i] is logical pixel (32·(i mod 2) + 31 − b, i / 2) (R22): after BMP_WR i, v and DRAW_BEGIN, DECODE of
any physical pixel of that logical pixel emits bit b of v. -/
def Obligations.WrittenBitIsDisplayedAtItsPixel : Prop :=
  ∀ (s : State) (sc : Word) (i : BitVec 6) (v x y : Word) (b px py : Nat),
    s.draw = false → s.scale = some sc → sc ≠ 0 → b < 32 →
    trunc32 x = .ok px → trunc32 y = .ok py → px < 2 ^ 32 → py < 2 ^ 32 →
    px / sc.toNat = 32 * (i.toNat % 2) + (31 - b) → py / sc.toNat = i.toNat / 2 →
    ∃ t u w e, exec (.bmpWr i v) s = .next t ∧ exec .drawBegin t = .next u ∧ exec (.decode x y) u = .next w ∧
      GainsEvent u w e ∧ e.px.toNat = px ∧ e.py.toNat = py ∧ e.lit = v.getLsbD b

/-! ### Faults -/

/-- R89 and R105: raising a fault records it provided none is recorded, changes nothing else, and a second fault does
not replace the first. -/
def Obligations.FirstFaultIsRecordedAlone : Prop :=
  ∀ (r q : FaultRecord) (s : State),
    raise r s = .next (s.afterFault r) ∧
    (s.fault = none → (s.afterFault r).fault = some r) ∧
    raise q (s.afterFault r) = .next (s.afterFault r)

/-- A run that has faulted has no step but the reset input's, and no other run stops (R89, R105). That a run with nothing
presented keeps stepping, and keeps its whole state, is the model's choice (log 3), and so is that a reset listed behind
another input does not end a faulted run (log 18). -/
def Obligations.OnlyFaultedRunsStop : Prop :=
  (∀ (s : State) (r : FaultRecord), s.fault = some r → NotReset s → step s = .fault (.faultedRun r)) ∧
  (∀ s : State, s.fault = none → ∃ t, step s = .next t) ∧
  (∀ s : State, s.pending = [] → s.fault = none → step s = .next s) ∧
  (∀ s : State, ¬ NotReset s → ∃ t, step s = .next t ∧ t.fault = none)

/-- An operation that faults has no other effect, and no operation clears FAULT (R27, R89, R104). -/
def Obligations.FaultingOperationHasNoOtherEffect : Prop :=
  ∀ (i : Instr) (s t : State) (r : FaultRecord), exec i s = .next t →
    (s.fault = none → t.fault = some r → t = { s with fault := some r }) ∧
    (s.fault = some r → t.fault = some r)

/-- Each operation raises only the fault codes that R90 to R100 give it. -/
def Obligations.OperationsRaiseOnlyTheirFaults : Prop :=
  ∀ (i : Instr) (s t : State) (r : FaultRecord), BlockInv s → s.fault = none → exec i s = .next t →
    t.fault = some r → r.code ∈ faultCodes i

/-! ### The whole machine -/

/-- Which operation writes which state (the spec's own inference, "derived" in R30), whether it completes or faults. INFLIGHT empty is part of the invariant. -/
def Obligations.OperationsWriteOnlyTheirState : Prop :=
  ∀ (i : Instr) (s t : State), s.inflight = [] → exec i s = .next t →
    t.pending = s.pending ∧ t.inflight = [] ∧
    ((∀ v, i ≠ .scaleWr v) → t.scale = s.scale) ∧
    ((∀ n v, i ≠ .bmpWr n v) → t.bmp = s.bmp) ∧
    (∀ n v, i = .bmpWr n v → ∀ j, j ≠ n.toNat → t.bmp.read j = s.bmp.read j) ∧
    (i ≠ .drawBegin → i ≠ .drawEnd → t.draw = s.draw) ∧
    ((∀ x y, i ≠ .decode x y) → t.out = s.out) ∧
    (i ≠ .scaleRd → i ≠ .ctrlRd → (∀ n, i ≠ .bmpRd n) → t.rdata = s.rdata)

/-- While a draw call is in flight, no step but the reset input's changes SCALE or BMP (R21, R80, R85; "derived" in
R41). -/
def Obligations.ConfigurationIsFrozenInADrawCall : Prop :=
  ∀ s t : State, s.draw = true → NotReset s → step s = .next t → t.scale = s.scale ∧ t.bmp = s.bmp

/-- OUT only grows, by at most one event a step, and only a sample presented while DRAW = 1 adds one (R27, R62, R78). That
host operations leave OUT alone is the spec's own inference, "derived" in R30. INFLIGHT empty is part of the invariant. -/
def Obligations.OutGrowsOnlyBySamplesInADrawCall : Prop :=
  ∀ s t : State, s.inflight = [] → NotReset s → step s = .next t →
    t.out = s.out ∨
    ∃ w rest e, s.pending = .transaction (.sample w) :: rest ∧ s.draw = true ∧
      ∀ f, t.out.count f = s.out.count f + if f = e then 1 else 0

/-- A step performs the transaction presented next: one that decodes is executed, and a rejected one, in the same place,
raises F_RESERVED with its pattern and does nothing else (R56, R87). That the block does only what its ports present, and
that every pattern is an operation or reserved, are the spec's own inferences, "derived" in R16 and R54. The list of inputs
is the model's own (log 2). -/
def Obligations.StepRunsTheDecodedOperation : Prop :=
  (∀ (s : State) (tr : Transaction) (rest : List Input) (i : Instr),
    s.pending = .transaction tr :: rest → s.fault = none → decode tr = .ok i → i.WellFormed = true →
    step s = exec i { s with pending := rest }) ∧
  (∀ (s : State) (h : BitVec 40) (rest : List Input),
    s.pending = .transaction (.host h) :: rest → s.fault = none → (∃ e, decodeHost h = .error e) →
    step s = .next (State.afterFault (.reserved h) { s with pending := rest }))

/-- A table word presented with `withFetchWord` is run by the very next step, on the state as it was: the model's input
list and its reading of table words (log 2, log 12). That the port fixes a word's length and that the decoder is total are
the spec's own inferences, "derived" in R58 and R54. -/
def Obligations.PresentedTableWordRunsNext : Prop :=
  ∀ (s : State) (nbits w : Nat) (i : Instr), s.fault = none → decodeTableWord nbits w = some i →
    step (s.withFetchWord nbits w) = exec i s

/-- R110: the reset input, in any state, leaves SCALE and every BMP word ⊥, DRAW 0, INFLIGHT empty, FAULT none and OUT
empty; and the model's initial state is such a state. -/
def Obligations.ResetStartsANewRun : Prop :=
  (∀ (s : State) (rest : List Input), s.pending = .reset :: rest →
    ∃ t, step s = .next t ∧ t.scale = none ∧ (∀ i, t.bmp.read i = none) ∧ t.draw = false ∧ t.inflight = [] ∧
      t.fault = none ∧ t.out = []) ∧
  (State.reset.scale = none ∧ (∀ i, State.reset.bmp.read i = none) ∧ State.reset.draw = false ∧
    State.reset.inflight = [] ∧ State.reset.fault = none ∧ State.reset.out = [])

/-- The invariant holds at reset (R29). -/
def Obligations.ResetMeetsTheInvariant : Prop := BlockInv State.reset

/-- Every step keeps the invariant: SCALE is never 0 and is set in a draw call, INFLIGHT is empty between steps, BMP and
OUT are canonical, and only black and white were emitted, each for its bit (R18, R22, R25, R62, R72). -/
def Obligations.EveryStepKeepsTheInvariant : Prop :=
  ∀ s t : State, BlockInv s → step s = .next t → BlockInv t

/-- R123: a run whose last transaction is the DRAW_END of its open draw call ends successfully, with the observation
(OUT and the RDATA values) it had; a faulted run, a run with DRAW = 1 and a run whose next input is a HOST transaction do
not end successfully. -/
def Obligations.RunEndsSuccessfullyWithItsDrawEnd : Prop :=
  (∀ s : State, s.draw = true → s.fault = none → s.inflight = [] →
    s.pending = [.transaction (.host 0x8100000000#40)] →
    ∃ t, step s = .next t ∧ SuccessfulEnd t ∧ t.out = s.out ∧ t.rdata = s.rdata) ∧
  (∀ (s : State) (r : FaultRecord), s.fault = some r → ¬ SuccessfulEnd s) ∧
  (∀ s : State, s.draw = true → ¬ SuccessfulEnd s) ∧
  (∀ (s : State) (h : BitVec 40) (rest : List Input),
    s.pending = .transaction (.host h) :: rest → ¬ SuccessfulEnd s)
end

