-- ==== Sys2Proof/Laws/Decode.lean ====
section
/-! SUPPORT. The fields of an assembled word are the fields it was assembled from, and a word is assembled from its
own fields. -/

namespace Sys2Proof

@[simp] theorem hostWE_hostWord (we : Bool) (a : BitVec 7) (d : Word) : hostWE (hostWord we a d) = we := by
  simp only [hostWE, hostWord, BitVec.getLsbD_or, BitVec.getLsbD_shiftLeft, BitVec.getLsbD_setWidth]
  cases we <;> simp

@[simp] theorem hostWADDR_hostWord (we : Bool) (a : BitVec 7) (d : Word) : hostWADDR (hostWord we a d) = a := by
  apply BitVec.eq_of_getLsbD_eq
  intro k hk
  simp only [hostWADDR, hostWord, BitVec.getLsbD_extractLsb', BitVec.getLsbD_or, BitVec.getLsbD_shiftLeft,
    BitVec.getLsbD_setWidth]
  have h1 : 32 + k < 39 := by omega
  have h4 : 32 + k < 40 := by omega
  have h5 : 32 + k - 32 = k := by omega
  have h6 : k < 40 := by omega
  simp [hk, h1, h4, h5, h6]

@[simp] theorem hostWDATA_hostWord (we : Bool) (a : BitVec 7) (d : Word) : hostWDATA (hostWord we a d) = d := by
  apply BitVec.eq_of_getLsbD_eq
  intro k hk
  have h1 : k < 39 := by omega
  have h4 : k < 40 := by omega
  simp [hostWDATA, hostWord, hk, h1, h4]

@[simp] theorem sampleX_sampleWord (x y : Word) : sampleX (sampleWord x y) = x := by
  apply BitVec.eq_of_getLsbD_eq
  intro k hk
  have h1 : 32 + k < 64 := by omega
  simp [sampleX, sampleWord, hk, h1]

@[simp] theorem sampleY_sampleWord (x y : Word) : sampleY (sampleWord x y) = y := by
  apply BitVec.eq_of_getLsbD_eq
  intro k hk
  have h1 : k < 64 := by omega
  simp [sampleY, sampleWord, hk, h1]

/-- WADDR as a number. -/
theorem toNat_hostWADDR (h : BitVec 40) : (hostWADDR h).toNat = h.toNat / 2 ^ 32 % 2 ^ 7 := by
  simp [hostWADDR, BitVec.extractLsb'_toNat, Nat.shiftRight_eq_div_pow]

/-- WDATA as a number. -/
theorem toNat_hostWDATA (h : BitVec 40) : (hostWDATA h).toNat = h.toNat % 2 ^ 32 := by
  simp [hostWDATA]

/-- WE as a number. -/
theorem toNat_hostWE (h : BitVec 40) : (hostWE h).toNat = h.toNat / 2 ^ 39 := by
  have hb : hostWE h = decide (h.toNat / 2 ^ 39 % 2 = 1) := by
    simp only [hostWE, BitVec.getLsbD, Nat.testBit_eq_decide_div_mod_eq]
  have := h.isLt
  have h1 : h.toNat / 2 ^ 39 < 2 := by omega
  rw [hb]
  interval_cases h.toNat / 2 ^ 39 <;> rfl

/-- The number of a HOST word (R55). -/
theorem toNat_hostWord (we : Bool) (a : BitVec 7) (d : Word) :
    (hostWord we a d).toNat = (we.toNat * 2 ^ 7 + a.toNat) * 2 ^ 32 + d.toNat := by
  have h1 := toNat_hostWE (hostWord we a d)
  have h2 := toNat_hostWADDR (hostWord we a d)
  have h3 := toNat_hostWDATA (hostWord we a d)
  rw [hostWE_hostWord] at h1
  rw [hostWADDR_hostWord] at h2
  rw [hostWDATA_hostWord] at h3
  omega

/-- A HOST word is assembled from its own fields. -/
theorem hostWord_fields (h : BitVec 40) : hostWord (hostWE h) (hostWADDR h) (hostWDATA h) = h := by
  apply BitVec.eq_of_toNat_eq
  rw [toNat_hostWord, toNat_hostWE, toNat_hostWADDR, toNat_hostWDATA]
  omega

/-- A SAMPLE word is assembled from its own fields. -/
theorem sampleWord_fields (w : BitVec 64) : sampleWord (sampleX w) (sampleY w) = w := by
  apply BitVec.eq_of_getLsbD_eq
  intro k hk
  by_cases h : k < 32
  · simp [sampleWord, sampleX, sampleY, h, hk]
  · have h1 : k - 32 < 32 := by omega
    have h2 : 32 + (k - 32) = k := by omega
    simp [sampleWord, sampleX, sampleY, h, hk, h1, h2]

@[simp] theorem bmpWADDR_bit6 (i : BitVec 6) : (bmpWADDR i).getLsbD 6 = true := by
  simp [bmpWADDR]

/-- The WADDR of `BMP[i]` is 64 + i (R49). -/
@[simp] theorem toNat_bmpWADDR (i : BitVec 6) : (bmpWADDR i).toNat = 64 + i.toNat := by
  have := i.isLt
  have h : 2 ^ 6 * 1 + i.toNat = 2 ^ 6 * 1 ||| i.toNat := Nat.two_pow_add_eq_or_of_lt (by simpa using this) 1
  have h7 : i.toNat % 128 = i.toNat := Nat.mod_eq_of_lt (by omega)
  simp only [bmpWADDR, BitVec.toNat_or, BitVec.toNat_setWidth, BitVec.toNat_ofNat]
  norm_num [h7] at h ⊢
  omega

@[simp] theorem bmpWADDR_index (i : BitVec 6) : (bmpWADDR i).extractLsb' 0 6 = i := by
  apply BitVec.eq_of_toNat_eq
  have := i.isLt
  simp [BitVec.extractLsb'_toNat]
  omega

/-- HOST words are equal when their fields are. -/
theorem hostWord_inj {we we' : Bool} {a a' : BitVec 7} {d d' : Word} :
    hostWord we a d = hostWord we' a' d' ↔ we = we' ∧ a = a' ∧ d = d' := by
  refine ⟨fun h => ⟨?_, ?_, ?_⟩, fun ⟨h1, h2, h3⟩ => by rw [h1, h2, h3]⟩
  · simpa using congrArg hostWE h
  · simpa using congrArg hostWADDR h
  · simpa using congrArg hostWDATA h

/-- The mask of a register row keeps WE and WADDR (R55). -/
theorem and_maskRegister (we : Bool) (a : BitVec 7) (d : Word) :
    hostWord we a d &&& 0xFF00000000#40 = hostWord we a 0 := by
  apply BitVec.eq_of_getLsbD_eq
  intro k hk
  have hm : ∀ k < 40, (0xFF00000000#40).getLsbD k = decide (32 ≤ k) := by decide
  have hz : (0 : Word).getLsbD k = false := by simp
  rw [BitVec.getLsbD_and, hm k hk]
  simp only [hostWord, BitVec.getLsbD_or, BitVec.getLsbD_shiftLeft, BitVec.getLsbD_setWidth, hk, hz]
  by_cases h32 : k < 32
  · have h39 : k < 39 := by omega
    simp [h32, h39]
  · have h32' : 32 ≤ k := by omega
    simp [h32, h32']

/-- The mask of a bitmap row keeps WE and bit 6 of WADDR (R55). -/
theorem and_maskBitmap (we : Bool) (a : BitVec 7) (d : Word) :
    hostWord we a d &&& 0xC000000000#40 = hostWord we (a &&& 64#7) 0 := by
  apply BitVec.eq_of_getLsbD_eq
  intro k hk
  have hm : ∀ k < 40, (0xC000000000#40).getLsbD k = decide (38 ≤ k) := by decide
  have hz : (0 : Word).getLsbD k = false := by simp
  have h6 : ∀ k < 8, (64#7).getLsbD k = decide (k = 6) := by decide
  rw [BitVec.getLsbD_and, hm k hk]
  simp only [hostWord, BitVec.getLsbD_or, BitVec.getLsbD_and, BitVec.getLsbD_shiftLeft, BitVec.getLsbD_setWidth, hk, hz]
  by_cases h32 : k < 32
  · have h39 : k < 39 := by omega
    have h38 : k < 38 := by omega
    simp [h32, h39, h38]
  · rw [h6 _ (by omega), BitVec.getLsbD_of_ge d k (by omega)]
    by_cases h38 : k < 38
    · have h39 : k < 39 := by omega
      have : ¬ k - 32 = 6 := by omega
      have : ¬ 38 ≤ k := by omega
      simp [*]
    · obtain rfl | rfl : k = 38 ∨ k = 39 := by omega
      · simp
      · simp

/-- Bit 6 of WADDR, alone. -/
theorem and_maskBit6 (a : BitVec 7) : a &&& 64#7 = if a.getLsbD 6 then 64#7 else 0 := by
  revert a; decide

end Sys2Proof
end

