-- ==== Sys2Proof/Laws/Operands.lean ====
section
/-! SUPPORT. What `trunc32` can answer: one clause per case of R63. -/

namespace Sys2Proof.Machine

theorem f32Exponent_lt (f : Word) : f32Exponent f < 256 := (f.extractLsb' 23 8).isLt

theorem f32Fraction_lt (f : Word) : f32Fraction f < 2 ^ 23 := (f.extractLsb' 0 23).isLt

theorem trunc32_invalid {f : Word} (h : F32Invalid f) : trunc32 f = .error (.coordInvalid f) := by
  unfold F32Invalid at h
  simp only [trunc32]
  split_ifs <;> first | rfl | (exfalso; tauto)

/-- The exact integer part of a field that R63 does not fault. -/
theorem trunc32_valid {f : Word} (h : ¬ F32Invalid f) :
    trunc32 f = .ok (if f32Exponent f < 127 then 0
      else if f32Exponent f ≤ 150 then (2 ^ 23 + f32Fraction f) / 2 ^ (150 - f32Exponent f)
      else (2 ^ 23 + f32Fraction f) * 2 ^ (f32Exponent f - 150)) := by
  unfold F32Invalid at h
  simp only [trunc32, Nat.shiftRight_eq_div_pow, Nat.shiftLeft_eq]
  split_ifs <;> first | rfl | (exfalso; tauto)

/-- The only fault of `trunc32` carries the offending field (R92). -/
theorem trunc32_error {f : Word} {r : FaultRecord} :
    trunc32 f = .error r ↔ F32Invalid f ∧ r = .coordInvalid f := by
  by_cases h : F32Invalid f
  · simp [trunc32_invalid h, h, eq_comm]
  · simp [trunc32_valid h, h]

end Sys2Proof.Machine
end

