-- ==== Sys2Proof/Laws/State.lean ====
section
/-! SUPPORT. One lemma per field of State per update, so that no proof unfolds a record update. -/

namespace Sys2Proof.Machine

@[simp] theorem State.setScale_scale (v : Word) (s : State) : (s.setScale v).scale = some v := rfl
@[simp] theorem State.setScale_bmp (v : Word) (s : State) : (s.setScale v).bmp = s.bmp := rfl
@[simp] theorem State.setScale_draw (v : Word) (s : State) : (s.setScale v).draw = s.draw := rfl
@[simp] theorem State.setScale_inflight (v : Word) (s : State) : (s.setScale v).inflight = s.inflight := rfl
@[simp] theorem State.setScale_fault (v : Word) (s : State) : (s.setScale v).fault = s.fault := rfl
@[simp] theorem State.setScale_out (v : Word) (s : State) : (s.setScale v).out = s.out := rfl
@[simp] theorem State.setScale_rdata (v : Word) (s : State) : (s.setScale v).rdata = s.rdata := rfl
@[simp] theorem State.setScale_pending (v : Word) (s : State) : (s.setScale v).pending = s.pending := rfl

@[simp] theorem State.setBmp_scale (i : Nat) (v : Word) (s : State) : (s.setBmp i v).scale = s.scale := rfl
@[simp] theorem State.setBmp_bmp (i : Nat) (v : Word) (s : State) : (s.setBmp i v).bmp = s.bmp.write i v := rfl
@[simp] theorem State.setBmp_draw (i : Nat) (v : Word) (s : State) : (s.setBmp i v).draw = s.draw := rfl
@[simp] theorem State.setBmp_inflight (i : Nat) (v : Word) (s : State) : (s.setBmp i v).inflight = s.inflight := rfl
@[simp] theorem State.setBmp_fault (i : Nat) (v : Word) (s : State) : (s.setBmp i v).fault = s.fault := rfl
@[simp] theorem State.setBmp_out (i : Nat) (v : Word) (s : State) : (s.setBmp i v).out = s.out := rfl
@[simp] theorem State.setBmp_rdata (i : Nat) (v : Word) (s : State) : (s.setBmp i v).rdata = s.rdata := rfl
@[simp] theorem State.setBmp_pending (i : Nat) (v : Word) (s : State) : (s.setBmp i v).pending = s.pending := rfl

@[simp] theorem State.setDraw_scale (b : Bool) (s : State) : (s.setDraw b).scale = s.scale := rfl
@[simp] theorem State.setDraw_bmp (b : Bool) (s : State) : (s.setDraw b).bmp = s.bmp := rfl
@[simp] theorem State.setDraw_draw (b : Bool) (s : State) : (s.setDraw b).draw = b := rfl
@[simp] theorem State.setDraw_inflight (b : Bool) (s : State) : (s.setDraw b).inflight = s.inflight := rfl
@[simp] theorem State.setDraw_fault (b : Bool) (s : State) : (s.setDraw b).fault = s.fault := rfl
@[simp] theorem State.setDraw_out (b : Bool) (s : State) : (s.setDraw b).out = s.out := rfl
@[simp] theorem State.setDraw_rdata (b : Bool) (s : State) : (s.setDraw b).rdata = s.rdata := rfl
@[simp] theorem State.setDraw_pending (b : Bool) (s : State) : (s.setDraw b).pending = s.pending := rfl

@[simp] theorem State.respond_scale (v : Word) (s : State) : (s.respond v).scale = s.scale := rfl
@[simp] theorem State.respond_bmp (v : Word) (s : State) : (s.respond v).bmp = s.bmp := rfl
@[simp] theorem State.respond_draw (v : Word) (s : State) : (s.respond v).draw = s.draw := rfl
@[simp] theorem State.respond_inflight (v : Word) (s : State) : (s.respond v).inflight = s.inflight := rfl
@[simp] theorem State.respond_fault (v : Word) (s : State) : (s.respond v).fault = s.fault := rfl
@[simp] theorem State.respond_out (v : Word) (s : State) : (s.respond v).out = s.out := rfl
@[simp] theorem State.respond_rdata (v : Word) (s : State) : (s.respond v).rdata = s.rdata ++ [v] := rfl
@[simp] theorem State.respond_pending (v : Word) (s : State) : (s.respond v).pending = s.pending := rfl

@[simp] theorem State.emit_scale (e : Event) (s : State) : (s.emit e).scale = s.scale := rfl
@[simp] theorem State.emit_bmp (e : Event) (s : State) : (s.emit e).bmp = s.bmp := rfl
@[simp] theorem State.emit_draw (e : Event) (s : State) : (s.emit e).draw = s.draw := rfl
@[simp] theorem State.emit_inflight (e : Event) (s : State) : (s.emit e).inflight = s.inflight := rfl
@[simp] theorem State.emit_fault (e : Event) (s : State) : (s.emit e).fault = s.fault := rfl
@[simp] theorem State.emit_out (e : Event) (s : State) : (s.emit e).out = Output.insert e s.out := rfl
@[simp] theorem State.emit_rdata (e : Event) (s : State) : (s.emit e).rdata = s.rdata := rfl
@[simp] theorem State.emit_pending (e : Event) (s : State) : (s.emit e).pending = s.pending := rfl

@[simp] theorem State.present_scale (t : Transaction) (s : State) : (s.present t).scale = s.scale := rfl
@[simp] theorem State.present_bmp (t : Transaction) (s : State) : (s.present t).bmp = s.bmp := rfl
@[simp] theorem State.present_draw (t : Transaction) (s : State) : (s.present t).draw = s.draw := rfl
@[simp] theorem State.present_inflight (t : Transaction) (s : State) : (s.present t).inflight = s.inflight := rfl
@[simp] theorem State.present_fault (t : Transaction) (s : State) : (s.present t).fault = s.fault := rfl
@[simp] theorem State.present_out (t : Transaction) (s : State) : (s.present t).out = s.out := rfl
@[simp] theorem State.present_rdata (t : Transaction) (s : State) : (s.present t).rdata = s.rdata := rfl
@[simp] theorem State.present_pending (t : Transaction) (s : State) : (s.present t).pending = .transaction t :: s.pending := rfl

@[simp] theorem State.raiseFault_scale (r : FaultRecord) (s : State) : (s.raiseFault r).scale = s.scale := by
  unfold State.raiseFault; cases s.fault <;> rfl
@[simp] theorem State.raiseFault_bmp (r : FaultRecord) (s : State) : (s.raiseFault r).bmp = s.bmp := by
  unfold State.raiseFault; cases s.fault <;> rfl
@[simp] theorem State.raiseFault_draw (r : FaultRecord) (s : State) : (s.raiseFault r).draw = s.draw := by
  unfold State.raiseFault; cases s.fault <;> rfl
@[simp] theorem State.raiseFault_inflight (r : FaultRecord) (s : State) : (s.raiseFault r).inflight = s.inflight := by
  unfold State.raiseFault; cases s.fault <;> rfl
@[simp] theorem State.raiseFault_fault (r : FaultRecord) (s : State) :
    (s.raiseFault r).fault = some (s.fault.getD r) := by
  unfold State.raiseFault; cases h : s.fault <;> simp [h]
@[simp] theorem State.raiseFault_out (r : FaultRecord) (s : State) : (s.raiseFault r).out = s.out := by
  unfold State.raiseFault; cases s.fault <;> rfl
@[simp] theorem State.raiseFault_rdata (r : FaultRecord) (s : State) : (s.raiseFault r).rdata = s.rdata := by
  unfold State.raiseFault; cases s.fault <;> rfl
@[simp] theorem State.raiseFault_pending (r : FaultRecord) (s : State) : (s.raiseFault r).pending = s.pending := by
  unfold State.raiseFault; cases s.fault <;> rfl

@[simp] theorem State.emitAll_scale (es : List Event) (s : State) : (s.emitAll es).scale = s.scale := by
  induction es generalizing s with
  | nil => rfl
  | cons e es ih => simp [State.emitAll, ih]
@[simp] theorem State.emitAll_bmp (es : List Event) (s : State) : (s.emitAll es).bmp = s.bmp := by
  induction es generalizing s with
  | nil => rfl
  | cons e es ih => simp [State.emitAll, ih]
@[simp] theorem State.emitAll_draw (es : List Event) (s : State) : (s.emitAll es).draw = s.draw := by
  induction es generalizing s with
  | nil => rfl
  | cons e es ih => simp [State.emitAll, ih]
@[simp] theorem State.emitAll_inflight (es : List Event) (s : State) : (s.emitAll es).inflight = s.inflight := by
  induction es generalizing s with
  | nil => rfl
  | cons e es ih => simp [State.emitAll, ih]
@[simp] theorem State.emitAll_fault (es : List Event) (s : State) : (s.emitAll es).fault = s.fault := by
  induction es generalizing s with
  | nil => rfl
  | cons e es ih => simp [State.emitAll, ih]
@[simp] theorem State.emitAll_rdata (es : List Event) (s : State) : (s.emitAll es).rdata = s.rdata := by
  induction es generalizing s with
  | nil => rfl
  | cons e es ih => simp [State.emitAll, ih]
@[simp] theorem State.emitAll_pending (es : List Event) (s : State) : (s.emitAll es).pending = s.pending := by
  induction es generalizing s with
  | nil => rfl
  | cons e es ih => simp [State.emitAll, ih]

@[simp] theorem State.applyReset_scale (rest : List Input) : (State.applyReset rest).scale = none := rfl
@[simp] theorem State.applyReset_bmp (rest : List Input) : (State.applyReset rest).bmp = [] := rfl
@[simp] theorem State.applyReset_draw (rest : List Input) : (State.applyReset rest).draw = false := rfl
@[simp] theorem State.applyReset_inflight (rest : List Input) : (State.applyReset rest).inflight = [] := rfl
@[simp] theorem State.applyReset_fault (rest : List Input) : (State.applyReset rest).fault = none := rfl
@[simp] theorem State.applyReset_out (rest : List Input) : (State.applyReset rest).out = [] := rfl
@[simp] theorem State.applyReset_rdata (rest : List Input) : (State.applyReset rest).rdata = [] := rfl
@[simp] theorem State.applyReset_pending (rest : List Input) : (State.applyReset rest).pending = rest := rfl

/-- The first fault is recorded (R89). -/
theorem State.raiseFault_of_none {s : State} (r : FaultRecord) (h : s.fault = none) :
    s.raiseFault r = { s with fault := some r } := by
  simp [State.raiseFault, h]

/-- A later fault changes nothing (R89, R105). -/
theorem State.raiseFault_of_some {s : State} {q : FaultRecord} (r : FaultRecord) (h : s.fault = some q) :
    s.raiseFault r = s := by
  simp [State.raiseFault, h]

end Sys2Proof.Machine
end

