-- ==== Sys2Proof/Laws/Memory.lean ====
section
/-! SUPPORT. The laws of the bitmap buffer: a read after a write, and the canonical form every operation keeps. -/

namespace Sys2Proof.Machine

@[simp] theorem Memory.read_nil (i : Nat) : Memory.read [] i = none := rfl

/-- What a word of the buffer reads after a write (R40, R85): the value at the index written, the old word elsewhere.
It needs no canonical form. -/
theorem Memory.read_write (m : Memory) (i j : Nat) (v : Word) :
    (m.write i v).read j = if j = i then some v else m.read j := by
  induction m with
  | nil => by_cases h : i = j <;> simp [Memory.write, Memory.read, h, eq_comm]
  | cons c m ih =>
    obtain ⟨k, w⟩ := c
    by_cases hlt : i < k
    · simp [Memory.write, hlt, Memory.read, eq_comm]
    by_cases heq : i = k
    · subst heq
      by_cases h : i = j <;> simp [Memory.write, Memory.read, h, eq_comm]
    · by_cases h : k = j
      · subst h
        simp [Memory.write, Memory.read, hlt, heq, Ne.symm heq]
      · simp [Memory.write, Memory.read, hlt, heq, h, ih]

@[simp] theorem Memory.read_write_self (m : Memory) (i : Nat) (v : Word) : (m.write i v).read i = some v := by
  simp [Memory.read_write]

theorem Memory.read_write_of_ne (m : Memory) {i j : Nat} (v : Word) (h : j ≠ i) :
    (m.write i v).read j = m.read j := by
  simp [Memory.read_write, h]

/-- The cells of a written buffer are the cell written and old cells. -/
theorem Memory.mem_write {m : Memory} {i : Nat} {v : Word} {c : Nat × Word} (h : c ∈ m.write i v) :
    c = (i, v) ∨ c ∈ m := by
  induction m with
  | nil => simpa [Memory.write] using h
  | cons d m ih =>
    obtain ⟨k, w⟩ := d
    unfold Memory.write at h
    split_ifs at h <;> simp only [List.mem_cons] at h ⊢ <;> tauto

theorem Memory.wf_nil : Memory.wf [] := by simp [Memory.wf]

/-- A write keeps the canonical form. -/
theorem Memory.wf_write {m : Memory} {i : Nat} {v : Word} (hm : Memory.wf m) (hi : i < Config.bitmapWords) :
    Memory.wf (m.write i v) := by
  obtain ⟨hp, hb⟩ := hm
  refine ⟨?_, fun c hc => ?_⟩
  · induction m with
    | nil => simp [Memory.write]
    | cons d m ih =>
      obtain ⟨k, w⟩ := d
      have hk := List.pairwise_cons.1 hp
      unfold Memory.write
      split_ifs with hlt heq
      · refine List.pairwise_cons.2 ⟨fun c hc => ?_, hp⟩
        rcases List.mem_cons.1 hc with rfl | hc
        · exact hlt
        · exact hlt.trans (hk.1 c hc)
      · subst heq
        exact List.pairwise_cons.2 ⟨hk.1, hk.2⟩
      · refine List.pairwise_cons.2 ⟨fun c hc => ?_, ih hk.2 fun c hc => hb c (List.mem_cons_of_mem _ hc)⟩
        rcases Memory.mem_write hc with rfl | hc
        · show k < i; omega
        · exact hk.1 c hc
  · rcases Memory.mem_write hc with rfl | hc
    · exact hi
    · exact hb c hc

/-- Equal reads make equal buffers: the canonical form is canonical. -/
theorem Memory.ext_of_wf {m n : Memory} (hm : Memory.wf m) (hn : Memory.wf n)
    (h : ∀ i, m.read i = n.read i) : m = n := by
  have small : ∀ (l : Memory) (i : Nat), (∀ c ∈ l, i < c.1) → l.read i = none := by
    intro l i
    induction l with
    | nil => simp
    | cons c l ih =>
      intro hc
      have hne : c.1 ≠ i := (hc c (by simp)).ne'
      simpa [Memory.read, hne] using ih fun d hd => hc d (by simp [hd])
  replace hm := hm.1
  replace hn := hn.1
  induction m generalizing n with
  | nil =>
    cases n with
    | nil => rfl
    | cons c n => simpa [Memory.read] using h c.1
  | cons c m ih =>
    cases n with
    | nil => simpa [Memory.read] using h c.1
    | cons d n =>
      obtain ⟨a, v⟩ := c
      obtain ⟨b, w⟩ := d
      rw [List.pairwise_cons] at hm hn
      have hab : a = b := by
        rcases lt_trichotomy a b with hlt | heq | hlt
        · have := h a
          rw [small ((b, w) :: n) a (by
            intro e he
            rcases List.mem_cons.1 he with rfl | he
            · exact hlt
            · exact hlt.trans (hn.1 e he))] at this
          simp [Memory.read] at this
        · exact heq
        · have := h b
          rw [small ((a, v) :: m) b (by
            intro e he
            rcases List.mem_cons.1 he with rfl | he
            · exact hlt
            · exact hlt.trans (hm.1 e he))] at this
          simp [Memory.read] at this
      subst hab
      have hv : v = w := by simpa [Memory.read] using h a
      subst hv
      congr 1
      refine ih (fun i => ?_) hm.2 hn.2
      by_cases hi : a = i
      · subst hi
        rw [small m a hm.1, small n a hn.1]
      · simpa [Memory.read, hi] using h i

theorem State.reset_bmp_wf : Memory.wf State.reset.bmp := Memory.wf_nil

end Sys2Proof.Machine
end

