-- ==== Sys2Proof/Laws/Output.lean ====
section
/-! SUPPORT. The laws of OUT as a multiset: membership, counts, its canonical form, and that the order in which events
are added does not matter. -/

namespace Sys2Proof.Machine

/-- Two events with one key are one event. -/
theorem Event.key_injective {a b : Event} (h : a.key = b.key) : a = b := by
  obtain ⟨x, y, l, c⟩ := a
  obtain ⟨x', y', l', c'⟩ := b
  have := x.isLt
  have := y.isLt
  have := c.isLt
  have := x'.isLt
  have := y'.isLt
  have := c'.isLt
  have := Bool.toNat_lt l
  have := Bool.toNat_lt l'
  simp only [Event.key] at h
  have hc : c.toNat = c'.toNat := by omega
  have hl : l.toNat = l'.toNat := by omega
  have hy : y.toNat = y'.toNat := by omega
  have hx : x.toNat = x'.toNat := by omega
  have hl' : l = l' := by cases l <;> cases l' <;> simp_all
  simp [BitVec.eq_of_toNat_eq hx, BitVec.eq_of_toNat_eq hy, BitVec.eq_of_toNat_eq hc, hl']

/-- Adding an event adds it and nothing else. -/
theorem Output.insert_perm (e : Event) (o : Output) : (Output.insert e o).Perm (e :: o) := by
  induction o with
  | nil => exact .refl _
  | cons f o ih =>
    unfold Output.insert
    split_ifs
    · exact .refl _
    · exact (ih.cons f).trans (.swap e f o)

@[simp] theorem Output.mem_insert (e f : Event) (o : Output) : f ∈ Output.insert e o ↔ f = e ∨ f ∈ o := by
  rw [(Output.insert_perm e o).mem_iff, List.mem_cons]

theorem Output.count_insert (e f : Event) (o : Output) :
    (Output.insert e o).count f = o.count f + if e = f then 1 else 0 := by
  rw [(Output.insert_perm e o).count_eq, List.count_cons]
  simp

@[simp] theorem Output.length_insert (e : Event) (o : Output) : (Output.insert e o).length = o.length + 1 :=
  (Output.insert_perm e o).length_eq

/-- Adding an event keeps the canonical form. -/
theorem Output.wf_insert {o : Output} (e : Event) (h : Output.wf o) : Output.wf (Output.insert e o) := by
  induction o with
  | nil => simp [Output.insert, Output.wf]
  | cons f o ih =>
    have hf := List.pairwise_cons.1 h
    unfold Output.insert
    split_ifs with hle
    · refine List.pairwise_cons.2 ⟨fun g hg => ?_, h⟩
      rcases List.mem_cons.1 hg with rfl | hg
      · exact hle
      · exact hle.trans (hf.1 g hg)
    · refine List.pairwise_cons.2 ⟨fun g hg => ?_, ih hf.2⟩
      rcases (Output.mem_insert e g o).1 hg with rfl | hg
      · omega
      · exact hf.1 g hg

/-- The order in which two events are added does not matter (R42). -/
theorem Output.insert_comm (a b : Event) (o : Output) :
    Output.insert a (Output.insert b o) = Output.insert b (Output.insert a o) := by
  by_cases hab : a = b
  · rw [hab]
  have hk : a.key ≠ b.key := fun h => hab (Event.key_injective h)
  induction o with
  | nil =>
    rcases lt_or_gt_of_ne hk with h | h <;> simp [Output.insert, h.le, not_le.2 h]
  | cons f o ih =>
    rcases lt_or_gt_of_ne hk with h | h <;> by_cases ha : a.key ≤ f.key <;> by_cases hb : b.key ≤ f.key <;>
      simp [Output.insert, ha, hb, h.le, not_le.2 h, ih] <;> omega

/-- Canonical outputs with the same events are one list: the canonical form is canonical. -/
theorem Output.eq_of_perm {o p : Output} (ho : Output.wf o) (hp : Output.wf p) (h : o.Perm p) : o = p :=
  h.eq_of_pairwise (fun _ _ _ _ h1 h2 => Event.key_injective (le_antisymm h1 h2)) ho hp

/-- Emitting a list of events adds each as often as it is in the list. -/
theorem State.count_emitAll (f : Event) (es : List Event) (s : State) :
    (s.emitAll es).out.count f = s.out.count f + es.count f := by
  induction es generalizing s with
  | nil => simp [State.emitAll]
  | cons e es ih =>
    rw [State.emitAll, ih, State.emit_out, Output.count_insert, List.count_cons]
    by_cases h : e = f
    · simp [h]; omega
    · simp [h]

theorem State.mem_emitAll (f : Event) (es : List Event) (s : State) :
    f ∈ (s.emitAll es).out ↔ f ∈ es ∨ f ∈ s.out := by
  rw [← List.count_pos_iff, ← List.count_pos_iff, ← List.count_pos_iff, State.count_emitAll]
  omega

theorem State.wf_emitAll (es : List Event) {s : State} (h : Output.wf s.out) : Output.wf (s.emitAll es).out := by
  induction es generalizing s with
  | nil => exact h
  | cons e es ih => exact ih (Output.wf_insert e h)

theorem State.emit_comm (a b : Event) (s : State) : (s.emit a).emit b = (s.emit b).emit a := by
  simp [State.emit, Output.insert_comm]

end Sys2Proof.Machine
end

