-- ==== Sys2Proof/Laws/SampleDecode.lean ====
section
/-! SUPPORT. What the datapath of DECODE can answer: one lemma per stage, and the two inversion lemmas of a sample's
result that the proofs about DECODE cite. -/

namespace Sys2Proof.Machine

/-- The domain test as inequalities (R64). -/
theorem inDomain_iff (s px py : Nat) :
    inDomain s px py = true ↔ px < 64 * s ∧ py < 32 * s ∧ px < 2 ^ 32 ∧ py < 2 ^ 32 := by
  simp [inDomain, and_assoc]

/-- The test after the division is the same test (R64, R73). -/
theorem divide_lt_iff {s : Nat} (p n : Nat) (hs : 0 < s) : divide p s < n ↔ p < n * s :=
  Nat.div_lt_iff_lt_mul hs

/-- A coordinate in the domain has a positive scale. -/
theorem scale_pos_of_inDomain {s px py : Nat} (h : inDomain s px py = true) : 0 < s := by
  have := (inDomain_iff s px py).1 h
  omega

/-- The logical coordinates of the domain are on the 64 × 32 grid (R73). -/
theorem logical_lt_of_inDomain {s px py : Nat} (h : inDomain s px py = true) :
    divide px s < 64 ∧ divide py s < 32 := by
  have hs := scale_pos_of_inDomain h
  have hd := (inDomain_iff s px py).1 h
  exact ⟨(divide_lt_iff px 64 hs).2 hd.1, (divide_lt_iff py 32 hs).2 hd.2.1⟩

theorem wordIndex_lt {lx ly : Nat} (hx : lx < 64) (hy : ly < 32) : wordIndex lx ly < 64 := by
  simp only [wordIndex, Config.bitsPerWord, Config.wordsPerRow]; omega

theorem bitPosition_lt (lx : Nat) : bitPosition lx < 32 := by
  simp only [bitPosition, Config.bitsPerWord]; omega

/-- The bit test tests bit `pos` (R70). -/
theorem bitTest_eq_getLsbD (w : Word) (pos : Nat) : bitTest w pos = w.getLsbD pos := by
  have h1 : (w >>> pos) &&& 1 = BitVec.ofNat 32 (w.getLsbD pos).toNat := by
    apply BitVec.eq_of_getLsbD_eq
    intro k hk
    cases k with
    | zero => cases h : w.getLsbD pos <;> simp [h]
    | succ k => cases h : w.getLsbD pos <;> simp [BitVec.getLsbD_one]
  rw [bitTest, h1]
  cases w.getLsbD pos <;> decide

theorem bmpFetch_ok {m : Memory} {i : Nat} {w : Word} : bmpFetch m i = .ok w ↔ m.read i = some w := by
  unfold bmpFetch; cases m.read i <;> simp

theorem bmpFetch_error {m : Memory} {i : Nat} {r : FaultRecord} :
    bmpFetch m i = .error r ↔ m.read i = none ∧ r = .bitmapUnset i := by
  unfold bmpFetch; cases m.read i <;> simp [eq_comm]

/-- When the datapath answers an event, and which (R64 to R72). -/
theorem unpackPixel_ok {m : Memory} {s px py : Nat} {e : Event} :
    unpackPixel m s px py = .ok e ↔
      inDomain s px py = true ∧ ∃ w, m.read (wordIndex (divide px s) (divide py s)) = some w ∧
        e = mkEvent px py (bitTest w (bitPosition (divide px s))) := by
  unfold unpackPixel bmpFetch
  split_ifs with h
  · cases m.read (wordIndex (divide px s) (divide py s)) <;> simp [h, eq_comm]
  · simp [h]

/-- When the datapath faults, and how (R64, R69). -/
theorem unpackPixel_error {m : Memory} {s px py : Nat} {r : FaultRecord} :
    unpackPixel m s px py = .error r ↔
      (inDomain s px py = false ∧ r = .coordRange px py) ∨
      (inDomain s px py = true ∧ m.read (wordIndex (divide px s) (divide py s)) = none ∧
        r = .bitmapUnset (wordIndex (divide px s) (divide py s))) := by
  unfold unpackPixel bmpFetch
  split_ifs with h
  · cases m.read (wordIndex (divide px s) (divide py s)) <;> simp [h, eq_comm]
  · simp [h, eq_comm]

/-- When a sample has an event, and which (R62). -/
theorem sampleResult_ok {s : State} {x y : Word} {e : Event} :
    sampleResult s x y = .ok e ↔
      s.draw = true ∧ ∃ sc px py, s.scale = some sc ∧ trunc32 x = .ok px ∧ trunc32 y = .ok py ∧
        unpackPixel s.bmp sc.toNat px py = .ok e := by
  unfold sampleResult laneEvaluate
  cases hd : s.draw
  · simp
  cases hs : s.scale
  · simp
  cases hx : trunc32 x
  · simp
  cases hy : trunc32 y <;> simp

/-- Which fault a sample raises, in the order of R102. -/
theorem sampleResult_error {s : State} {x y : Word} {r : FaultRecord} :
    sampleResult s x y = .error r ↔
      (s.draw = false ∧ r = .noDraw x y) ∨
      (s.draw = true ∧ s.scale = none ∧ r = .scaleUnset) ∨
      ∃ sc, s.draw = true ∧ s.scale = some sc ∧
        (trunc32 x = .error r ∨
         ∃ px, trunc32 x = .ok px ∧
          (trunc32 y = .error r ∨
           ∃ py, trunc32 y = .ok py ∧ unpackPixel s.bmp sc.toNat px py = .error r)) := by
  unfold sampleResult laneEvaluate
  cases hd : s.draw
  · simp [eq_comm]
  cases hs : s.scale
  · simp [eq_comm]
  cases hx : trunc32 x
  · simp
  cases hy : trunc32 y <;> simp

/-- A sample's result depends on DRAW, SCALE and BMP alone (R75), and on no lane (R71). -/
theorem laneEvaluate_congr {s t : State} (k l : Fin Config.lanes) (x y : Word)
    (hd : s.draw = t.draw) (hs : s.scale = t.scale) (hb : s.bmp = t.bmp) :
    laneEvaluate k s x y = laneEvaluate l t x y := by
  unfold laneEvaluate
  rw [hd, hs, hb]

theorem sampleResult_congr {s t : State} (x y : Word)
    (hd : s.draw = t.draw) (hs : s.scale = t.scale) (hb : s.bmp = t.bmp) :
    sampleResult s x y = sampleResult t x y :=
  laneEvaluate_congr _ _ x y hd hs hb

theorem collectEvents_congr {s t : State} (ws : List (BitVec 64))
    (hd : s.draw = t.draw) (hs : s.scale = t.scale) (hb : s.bmp = t.bmp) :
    collectEvents s ws = collectEvents t ws := by
  induction ws with
  | nil => rfl
  | cons w ws ih => rw [collectEvents, collectEvents, ih, sampleResult_congr _ _ hd hs hb]

/-- An event of a sample has the colour of its bit (R72). -/
theorem sampleResult_coloured {s : State} {x y : Word} {e : Event} (h : sampleResult s x y = .ok e) :
    e.rgba = colour e.lit := by
  obtain ⟨-, sc, px, py, -, -, -, hu⟩ := sampleResult_ok.1 h
  obtain ⟨-, w, -, rfl⟩ := unpackPixel_ok.1 hu
  rfl

/-- When a list of accepted samples has its events, and which: the event of each sample, in the samples' order. -/
theorem collectEvents_ok {s : State} {ws : List (BitVec 64)} {es : List Event} :
    collectEvents s ws = .ok es ↔
      List.Forall₂ (fun w e => sampleResult s (sampleX w) (sampleY w) = .ok e) ws es := by
  induction ws generalizing es with
  | nil => simp [collectEvents, eq_comm]
  | cons w ws ih =>
    rw [collectEvents, List.forall₂_cons_left_iff]
    cases hr : sampleResult s (sampleX w) (sampleY w) with
    | error r => simp
    | ok e =>
      cases hc : collectEvents s ws with
      | error r => simp [← ih, hc]
      | ok fs =>
        constructor
        · rintro ⟨⟩
          exact ⟨e, fs, rfl, ih.1 hc, rfl⟩
        · rintro ⟨_, l, ⟨⟩, hl, rfl⟩
          cases hc.symm.trans (ih.2 hl)
          rfl

theorem collectEvents_coloured {s : State} {ws : List (BitVec 64)} {es : List Event}
    (h : collectEvents s ws = .ok es) : ∀ e ∈ es, e.rgba = colour e.lit := by
  have h2 := collectEvents_ok.1 h
  induction h2 with
  | nil => simp
  | cons he _ ih =>
    exact List.forall_mem_cons.2 ⟨sampleResult_coloured he, ih (collectEvents_ok.2 ‹_›)⟩

end Sys2Proof.Machine
end

