-- ==== Sys2Proof/Laws/Exec.lean ====
section
/-! SUPPORT. What each operation and each step can answer, said once: an inversion lemma per meaning. -/

namespace Sys2Proof.Machine

/-- Raising a fault always answers a next state (R89). -/
@[simp] theorem raise_eq_next {r : FaultRecord} {s t : State} : raise r s = .next t ↔ s.raiseFault r = t := by
  simp [raise]

theorem execScaleRd_cases {s t : State} (h : execScaleRd s = .next t) :
    (s.scale = none ∧ t = s.raiseFault (.unsetRead scaleWADDR)) ∨ ∃ v, s.scale = some v ∧ t = s.respond v := by
  unfold execScaleRd at h
  split at h <;> rename_i hs <;> simp only [raise_eq_next, Host.Outcome.next.injEq] at h <;> subst h
  · exact .inl ⟨hs, rfl⟩
  · exact .inr ⟨_, hs, rfl⟩

theorem execBmpRd_cases {i : BitVec 6} {s t : State} (h : execBmpRd i s = .next t) :
    (s.bmp.read i.toNat = none ∧ t = s.raiseFault (.unsetRead (bmpWADDR i))) ∨
      ∃ v, s.bmp.read i.toNat = some v ∧ t = s.respond v := by
  unfold execBmpRd at h
  split at h <;> rename_i hs <;> simp only [raise_eq_next, Host.Outcome.next.injEq] at h <;> subst h
  · exact .inl ⟨hs, rfl⟩
  · exact .inr ⟨_, hs, rfl⟩

theorem execScaleWr_cases {v : Word} {s t : State} (h : execScaleWr v s = .next t) :
    (s.draw = true ∧ t = s.raiseFault (.writeInDraw scaleWADDR)) ∨
      (s.draw = false ∧ v = 0 ∧ t = s.raiseFault (.scaleZero v)) ∨
      (s.draw = false ∧ v ≠ 0 ∧ t = s.setScale v) := by
  unfold execScaleWr at h
  split_ifs at h with hd hv <;> simp only [raise_eq_next, Host.Outcome.next.injEq] at h <;> subst h
  · exact .inl ⟨hd, rfl⟩
  · exact .inr (.inl ⟨by simpa using hd, hv, rfl⟩)
  · exact .inr (.inr ⟨by simpa using hd, hv, rfl⟩)

theorem execBmpWr_cases {i : BitVec 6} {v : Word} {s t : State} (h : execBmpWr i v s = .next t) :
    (s.draw = true ∧ t = s.raiseFault (.writeInDraw (bmpWADDR i))) ∨
      (s.draw = false ∧ t = s.setBmp i.toNat v) := by
  unfold execBmpWr at h
  split_ifs at h with hd <;> simp only [raise_eq_next, Host.Outcome.next.injEq] at h <;> subst h
  · exact .inl ⟨hd, rfl⟩
  · exact .inr ⟨by simpa using hd, rfl⟩

theorem execDrawBegin_cases {s t : State} (h : execDrawBegin s = .next t) :
    (s.draw = true ∧ t = s.raiseFault .drawNested) ∨
      (s.draw = false ∧ s.scale = none ∧ t = s.raiseFault .scaleUnset) ∨
      (s.draw = false ∧ s.scale ≠ none ∧ t = s.setDraw true) := by
  unfold execDrawBegin at h
  split_ifs at h with hd
  · exact .inl ⟨hd, (raise_eq_next.1 h).symm⟩
  · split at h <;> rename_i hs <;> simp only [raise_eq_next, Host.Outcome.next.injEq] at h <;> subst h
    · exact .inr (.inl ⟨by simpa using hd, hs, rfl⟩)
    · exact .inr (.inr ⟨by simpa using hd, by simp [hs], rfl⟩)

theorem execDrawEnd_cases {s t : State} (h : execDrawEnd s = .next t) :
    (s.draw = false ∧ t = s.raiseFault .drawIdle) ∨
      (s.draw = true ∧ ∃ r, collectEvents s s.inflight = .error r ∧ t = s.raiseFault r) ∨
      (s.draw = true ∧ ∃ es, collectEvents s s.inflight = .ok es ∧
        t = { (s.emitAll es).setDraw false with inflight := [] }) := by
  unfold execDrawEnd at h
  split_ifs at h with hd
  · exact .inl ⟨hd, (raise_eq_next.1 h).symm⟩
  · split at h <;> rename_i hc <;> simp only [raise_eq_next, Host.Outcome.next.injEq] at h <;> subst h
    · exact .inr (.inl ⟨by simpa using hd, _, hc, rfl⟩)
    · exact .inr (.inr ⟨by simpa using hd, _, hc, rfl⟩)

theorem execDecode_cases {x y : Word} {s t : State} (h : execDecode x y s = .next t) :
    (∃ r, sampleResult s x y = .error r ∧ t = s.raiseFault r) ∨
      ∃ e, sampleResult s x y = .ok e ∧ t = s.emit e := by
  unfold execDecode at h
  split at h <;> rename_i hr <;> simp only [raise_eq_next, Host.Outcome.next.injEq] at h <;> subst h
  · exact .inl ⟨_, hr, rfl⟩
  · exact .inr ⟨_, hr, rfl⟩

/-- A state gains an event just when it goes to the state that has emitted it. -/
theorem gainsEvent_emit (s : State) (e : Event) : GainsEvent s (s.emit e) e :=
  ⟨fun f => by rw [State.emit_out, Output.count_insert]; simp only [eq_comm], rfl⟩

/-- A state gains at most one event. -/
theorem GainsEvent.unique {s t : State} {e f : Event} (he : GainsEvent s t e) (hf : GainsEvent s t f) : e = f := by
  have h := (he.1 e).symm.trans (hf.1 e)
  by_contra hne
  simp [hne] at h

/-- DECODE completes with an event just when the datapath answers it (R62). -/
theorem decode_gainsEvent {x y : Word} {s : State} {e : Event} :
    (∃ t, exec (.decode x y) s = .next t ∧ GainsEvent s t e) ↔ sampleResult s x y = .ok e := by
  constructor
  · rintro ⟨t, h, hg⟩
    rcases execDecode_cases h with ⟨r, -, rfl⟩ | ⟨f, hf, rfl⟩
    · simpa using hg.1 e
    · rwa [hg.unique (gainsEvent_emit s f)]
  · exact fun h => ⟨_, by rw [exec, execDecode, h], gainsEvent_emit s e⟩

/-- Every operation answers a next state: the block's faults are recorded in FAULT and stop the next step. -/
theorem exec_total (i : Instr) (s : State) : ∃ t, exec i s = .next t := by
  cases i <;>
    simp only [exec, execScaleRd, execCtrlRd, execBmpRd, execScaleWr, execDrawEnd, execDrawBegin, execBmpWr,
      execDecode, raise] <;>
    (repeat' split) <;> exact ⟨_, rfl⟩

/-- With the reset input next, a step starts a new run (R110). -/
theorem step_reset {s : State} {rest : List Input} (h : s.pending = .reset :: rest) :
    step s = .next (State.applyReset rest) := by
  simp [step, stepPort, h]

/-- With nothing presented, a run that has not faulted keeps its state. -/
theorem step_idle {s : State} (h : s.pending = []) (hf : s.fault = none) : step s = .next s := by
  simp [step, stepPort, h, hf]

/-- A transaction presented to a run that has not faulted is decoded and performed (R54). -/
theorem step_transaction {s : State} {t : Transaction} {rest : List Input}
    (h : s.pending = .transaction t :: rest) (hf : s.fault = none) :
    step s = performTransaction exec t { s with pending := rest } := by
  simp [step, stepPort, h, hf]

/-- A rejected HOST word carries itself (R99). -/
theorem decodeHost_error_pattern {h : BitVec 40} {e : DecodeError} (he : decodeHost h = .error e) : e.pattern = h := by
  unfold decodeHost at he
  split_ifs at he <;> cases he <;> rfl

/-- Everything a step that answers a next state can have done. -/
theorem step_cases {s t : State} (h : step s = .next t) :
    (∃ rest, s.pending = .reset :: rest ∧ t = State.applyReset rest) ∨
    (s.pending = [] ∧ s.fault = none ∧ t = s) ∨
    (∃ tr rest i, s.pending = .transaction tr :: rest ∧ s.fault = none ∧ decode tr = .ok i ∧
      exec i { s with pending := rest } = .next t) ∨
    (∃ tr rest e, s.pending = .transaction tr :: rest ∧ s.fault = none ∧ decode tr = .error e ∧
      t = State.raiseFault (.reserved e.pattern) { s with pending := rest }) := by
  unfold step stepPort at h
  split at h
  · rename_i rest hp
    exact .inl ⟨rest, hp, by simpa using h.symm⟩
  · cases h
  · rename_i tr rest hp hf
    unfold performTransaction at h
    split at h
    · rename_i i hi
      exact .inr (.inr (.inl ⟨tr, rest, i, hp, hf, hi, h⟩))
    · rename_i e he
      exact .inr (.inr (.inr ⟨tr, rest, e, hp, hf, he, (raise_eq_next.1 h).symm⟩))
  · rename_i hp hf
    exact .inr (.inl ⟨hp, hf, by simpa using h.symm⟩)

end Sys2Proof.Machine
end

