-- ==== Sys2Proof/Laws/PerInstr.lean ====
section
/-! SUPPORT. The family EncodedRow: the encoder writes each operation inside its own row of the opcode map (R55), as a
word that R56 does not reserve. -/

namespace Sys2Proof.Laws

/-- The encoding of `i` is well formed, and on the host port it matches the row of `i` under the row's mask. -/
def EncodedRow.Statement (i : Instr) : Prop :=
  (encode i).WellFormed = true ∧
    ∀ row h, i.hostRow = some row → encode i = .host h → row.matchesWord h = true

/-- A HOST word whose WADDR is 0, or 1 with WDATA at most 1, or at least 64, is not reserved (R56). -/
theorem hostWord_wellFormed {we : Bool} {a : BitVec 7} {d : Word}
    (h : a.toNat = 0 ∨ (a.toNat = 1 ∧ d.toNat ≤ 1) ∨ 64 ≤ a.toNat) :
    (Transaction.host (hostWord we a d)).WellFormed = true := by
  have := a.isLt
  have := d.isLt
  have := Bool.toNat_lt we
  simp only [Transaction.WellFormed, HasReservedAddress, HasReservedCtrlValue, toNat_hostWord, Bool.and_eq_true,
    Bool.not_eq_true', Bool.and_eq_false_iff, decide_eq_false_iff_not]
  omega

theorem EncodedRow.scaleRd : EncodedRow.Statement .scaleRd := by
  refine ⟨hostWord_wellFormed (.inl rfl), fun row h hr he => ?_⟩
  cases hr
  cases he
  decide

theorem EncodedRow.ctrlRd : EncodedRow.Statement .ctrlRd := by
  refine ⟨hostWord_wellFormed (.inr (.inl ⟨rfl, by decide⟩)), fun row h hr he => ?_⟩
  cases hr
  cases he
  decide

theorem EncodedRow.bmpRd (i : BitVec 6) : EncodedRow.Statement (.bmpRd i) := by
  refine ⟨hostWord_wellFormed (.inr (.inr (by simp))), fun row h hr he => ?_⟩
  cases hr
  cases he
  simp only [OpcodeRow.matchesWord, rowBmpRd, and_maskBitmap, and_maskBit6, bmpWADDR_bit6]
  decide

theorem EncodedRow.scaleWr (v : Word) : EncodedRow.Statement (.scaleWr v) := by
  refine ⟨hostWord_wellFormed (.inl rfl), fun row h hr he => ?_⟩
  cases hr
  cases he
  simp only [OpcodeRow.matchesWord, rowScaleWr, and_maskRegister]
  decide

theorem EncodedRow.drawEnd : EncodedRow.Statement .drawEnd := by
  refine ⟨hostWord_wellFormed (.inr (.inl ⟨rfl, by decide⟩)), fun row h hr he => ?_⟩
  cases hr
  cases he
  decide

theorem EncodedRow.drawBegin : EncodedRow.Statement .drawBegin := by
  refine ⟨hostWord_wellFormed (.inr (.inl ⟨rfl, by decide⟩)), fun row h hr he => ?_⟩
  cases hr
  cases he
  decide

theorem EncodedRow.bmpWr (i : BitVec 6) (v : Word) : EncodedRow.Statement (.bmpWr i v) := by
  refine ⟨hostWord_wellFormed (.inr (.inr (by simp))), fun row h hr he => ?_⟩
  cases hr
  cases he
  simp only [OpcodeRow.matchesWord, rowBmpWr, and_maskBitmap, and_maskBit6, bmpWADDR_bit6]
  decide

theorem EncodedRow.decode (x y : Word) : EncodedRow.Statement (.decode x y) := by
  refine ⟨rfl, fun row h hr he => ?_⟩
  cases hr

end Sys2Proof.Laws
end

