-- ==== Sys2Proof/Tests/Slice0.lean ====
section
/-! SUPPORT. The model's own tests. Expected results come from 95_test_vectors.md (H, D and S numbers, and the tables
of Part 2) and from the words of R55; the witnesses show that the hypotheses of each statement can be met together, at
the edges of their ranges. -/

namespace Sys2Proof.Machine.Tests

/-- A state between draw calls. -/
def between (sc : Option Word) (m : Memory) : State := { State.reset with scale := sc, bmp := m }

/-- A state with a draw call in flight. -/
def drawing (sc : Word) (m : Memory) : State := { State.reset with scale := some sc, bmp := m, draw := true }

/-- A state with one HOST word presented. -/
def presented (s : State) (h : BitVec 40) : State := s.present (.host h)

/-- The next state, if there is one. -/
def after : Result → Option State
  | .next s => some s
  | .fault _ => none
  | .refused _ => none

/-- FAULT in the next state. -/
def faultAfter (r : Result) : Option FaultRecord := (after r).bind (·.fault)

/-- OUT in the next state. -/
def outAfter (r : Result) : Output := ((after r).map (·.out)).getD []

/-! ### Well-formed words and decoding -/

theorem test_reserved_address_is_ill_formed :
    (Transaction.host 0x8200000000#40).WellFormed = false ∧ (Transaction.host 0x3F00000000#40).WellFormed = false := by
  decide

theorem test_reserved_ctrl_value_is_ill_formed : (Transaction.host 0x8100000002#40).WellFormed = false := by decide

theorem test_neighbours_of_reserved_are_well_formed :
    (Transaction.host 0x8100000001#40).WellFormed = true ∧ (Transaction.host 0x4000000000#40).WellFormed = true ∧
      (Transaction.host 0x0100000002#40).WellFormed = true := by decide

/-- R55: `1 0000000 v`. -/
theorem test_word_scaleWr : decode (.host 0b1_0000000_00000000000000000000000000000100#40) = .ok (.scaleWr 4) := by
  decide

/-- R55, R50: `0 0000000` with any WDATA. -/
theorem test_word_scaleRd : decode (.host 0b0_0000000_11011110101011011011111011101111#40) = .ok .scaleRd := by decide

/-- R55: `0 0000001`. -/
theorem test_word_ctrlRd : decode (.host 0b0_0000001_00000000000000000000000000000000#40) = .ok .ctrlRd := by decide

/-- R55: `1 0000001` with WDATA = 1. -/
theorem test_word_drawBegin : decode (.host 0b1_0000001_00000000000000000000000000000001#40) = .ok .drawBegin := by
  decide

/-- R55: `1 0000001` with WDATA = 0. -/
theorem test_word_drawEnd : decode (.host 0b1_0000001_00000000000000000000000000000000#40) = .ok .drawEnd := by decide

/-- R55: `1 1 iiiiii v`. -/
theorem test_word_bmpWr : decode (.host 0b1_1_000101_10000000000000000000000000000011#40) = .ok (.bmpWr 5 0x80000003) := by
  decide

/-- R55: `0 1 iiiiii`. -/
theorem test_word_bmpRd : decode (.host 0b0_1_111110_00000000000000000000000000000000#40) = .ok (.bmpRd 62) := by decide

/-- R51: X above Y (the worked example of R62). -/
theorem test_word_decode : decode (.sample 0x4301800040600000#64) = .ok (.decode 0x43018000 0x40600000) := by decide

/-- R56: the reserved patterns are rejected by name. -/
theorem test_reserved_by_name :
    decode (.host 0x8200000000#40) = .error (.reservedAddress 0x8200000000) ∧
      decode (.host 0x3F00000000#40) = .error (.reservedAddress 0x3F00000000) ∧
      decode (.host 0x8100000002#40) = .error (.reservedCtrlValue 0x8100000002) := by decide

/-- R54: any two HOST rows differ in a bit that both masks fix. -/
theorem test_rows_are_disjoint :
    hostRows.Pairwise fun a b => (a.pattern ^^^ b.pattern) &&& a.mask &&& b.mask ≠ 0 := by decide

theorem test_encode_examples :
    encode (.scaleWr 4) = .host 0x8000000004#40 ∧ encode (.bmpWr 0 0x80000000) = .host 0xC080000000#40 ∧
      encode (.bmpWr 63 0) = .host 0xFF00000000#40 ∧ encode (.bmpRd 5) = .host 0x4500000000#40 := by decide

theorem test_table_words :
    decodeTableWord 40 0x8100000001 = some .drawBegin ∧ decodeTableWord 64 0 = some (.decode 0 0) ∧
      decodeTableWord 0 0 = some (.decode 0 0) ∧ decodeTableWord 40 0x8200000000 = none := by decide

/-! ### trunc32 (95_test_vectors.md 2.1) -/

theorem test_trunc32_values :
    trunc32 0x80000000 = .ok 0 ∧ trunc32 0x007FFFFF = .ok 0 ∧ trunc32 0x3F7FFFFF = .ok 0 ∧ trunc32 0x3F800000 = .ok 1 ∧
      trunc32 0x40FFAE14 = .ok 7 ∧ trunc32 0x42FF0000 = .ok 127 ∧ trunc32 0x4B800000 = .ok 16777216 ∧
      trunc32 0x4B800001 = .ok 16777218 ∧ trunc32 0x4F7FFFFF = .ok 4294967040 ∧ trunc32 0x4F800000 = .ok 4294967296 := by
  decide

theorem test_trunc32_faults :
    trunc32 0xBF000000 = .error (.coordInvalid 0xBF000000) ∧ trunc32 0x80000001 = .error (.coordInvalid 0x80000001) ∧
      trunc32 0x7F800000 = .error (.coordInvalid 0x7F800000) ∧ trunc32 0xFF800000 = .error (.coordInvalid 0xFF800000) ∧
      trunc32 0x7FC00000 = .error (.coordInvalid 0x7FC00000) := by decide

/-! ### integer_divider_and_bit_indexer, parallel_pixel_unpacker, colour (2.2, 2.3, 2.4) -/

theorem test_index_and_position :
    wordIndex 31 0 = 0 ∧ bitPosition 31 = 0 ∧ wordIndex 32 0 = 1 ∧ bitPosition 32 = 31 ∧ wordIndex 5 2 = 4 ∧
      bitPosition 5 = 26 ∧ wordIndex 63 31 = 63 ∧ bitPosition 63 = 0 ∧ wordIndex 45 9 = 19 ∧ bitPosition 45 = 18 := by
  decide

theorem test_domain_edges :
    inDomain 4 255 127 = true ∧ inDomain 4 256 0 = false ∧ inDomain 4 255 128 = false ∧
      inDomain (2 ^ 26) 4294967040 0 = true ∧ inDomain (2 ^ 26) 0 (2 ^ 31) = false ∧
      inDomain 0xFFFFFFFF 4294967040 4294967040 = true ∧ inDomain 0xFFFFFFFF (2 ^ 32) 0 = false := by decide

theorem test_bit_test :
    bitTest 0x80000000 31 = true ∧ bitTest 0x80000000 30 = false ∧ bitTest 1 0 = true ∧ bitTest 0xA5A5A5A5 29 = true ∧
      bitTest 0xA5A5A5A5 1 = false := by decide

theorem test_colours : colour false = 0x000000FF ∧ colour true = 0xFFFFFFFF := by decide

/-! ### The host operations (2.5) -/

/-- H1, H3. -/
theorem test_scaleWr :
    (after (exec (.scaleWr 4) State.reset)).map (·.scale) = some (some 4) ∧
      after (exec (.scaleWr 0) State.reset) = some { State.reset with fault := some (.scaleZero 0) } := by decide

/-- H5: the write in a draw call is the first fault in the order of R102. -/
theorem test_scaleWr_priority : faultAfter (exec (.scaleWr 0) (drawing 4 [])) = some (.writeInDraw 0) := by decide

/-- H6, H8, H23. -/
theorem test_scaleRd :
    (after (exec .scaleRd (between (some 4) []))).map (·.rdata) = some [4] ∧
      (after (exec .scaleRd (drawing 4 []))).map (·.rdata) = some [4] ∧
      faultAfter (exec .scaleRd State.reset) = some (.unsetRead 0) := by decide

/-- H9, H10. -/
theorem test_ctrlRd :
    (after (exec .ctrlRd State.reset)).map (·.rdata) = some [0] ∧
      (after (exec .ctrlRd (drawing 4 []))).map (·.rdata) = some [1] := by decide

/-- H10, H11, H12. -/
theorem test_drawBegin :
    after (exec .drawBegin (between (some 4) [])) = some (drawing 4 []) ∧
      faultAfter (exec .drawBegin State.reset) = some .scaleUnset ∧
      faultAfter (exec .drawBegin (drawing 4 [])) = some .drawNested := by decide

/-- H13, H14. -/
theorem test_drawEnd :
    after (exec .drawEnd (drawing 4 [])) = some (between (some 4) []) ∧
      faultAfter (exec .drawEnd (between (some 4) [])) = some .drawIdle := by decide

/-- R84: an accepted sample's event is in OUT when DRAW_END has completed. -/
theorem test_drawEnd_drains :
    outAfter (exec .drawEnd { drawing 1 [(0, 0x80000000)] with inflight := [0x3F0000003F000000] }) =
      [⟨0, 0, true, 0xFFFFFFFF⟩] := by decide

/-- H15, H16, H17. -/
theorem test_bmpWr :
    (after (exec (.bmpWr 0 0x80000000) (between none [(63, 1)]))).map (·.bmp) = some [(0, 0x80000000), (63, 1)] ∧
      (after (exec (.bmpWr 63 1) (between none [(63, 7)]))).map (·.bmp) = some [(63, 1)] ∧
      faultAfter (exec (.bmpWr 5 0) (drawing 4 [])) = some (.writeInDraw 69) := by decide

/-- H18, H19. -/
theorem test_bmpRd :
    (after (exec (.bmpRd 63) (between none [(63, 1)]))).map (·.rdata) = some [1] ∧
      faultAfter (exec (.bmpRd 5) (between none [(63, 1)])) = some (.unsetRead 69) := by decide

/-- H20, H22: a reserved pattern faults on whatever state it meets. -/
theorem test_reserved_transactions :
    faultAfter (step (presented (drawing 4 []) 0x8200000000)) = some (.reserved 0x8200000000) ∧
      faultAfter (step (presented State.reset 0x8100000002)) = some (.reserved 0x8100000002) := by decide

/-! ### DECODE (2.6, P2, S4) -/

/-- The worked example of R62: SCALE = 4, DECODE 129.5, 3.5 tests bit 31 of `BMP[1]`. -/
theorem test_decode_event :
    outAfter (exec (.decode 0x43018000 0x40600000) (drawing 4 [(1, 0x80000000)])) = [⟨129, 3, true, 0xFFFFFFFF⟩] ∧
      outAfter (exec (.decode 0x43018000 0x40600000) (drawing 4 [(1, 0x7FFFFFFF)])) = [⟨129, 3, false, 0x000000FF⟩] := by
  decide

/-- D-1, D-2, D-3, D-5, D-7, D-8. -/
theorem test_decode_faults :
    faultAfter (exec (.decode 0x3F000000 0x3F000000) (between (some 1) [])) = some (.noDraw 0x3F000000 0x3F000000) ∧
      faultAfter (exec (.decode 0x7FC00000 0x3F000000) (between (some 1) [])) = some (.noDraw 0x7FC00000 0x3F000000) ∧
      faultAfter (exec (.decode 0xBF000000 0x3F000000) (drawing 1 [])) = some (.coordInvalid 0xBF000000) ∧
      faultAfter (exec (.decode 0x7FC00000 0xBF000000) (drawing 1 [])) = some (.coordInvalid 0x7FC00000) ∧
      faultAfter (exec (.decode 0x42810000 0x3F000000) (drawing 1 [(2, 0xFFFFFFFF)])) = some (.coordRange 64 0) ∧
      faultAfter (exec (.decode 0x42020000 0x3F000000) (drawing 1 [(0, 0)])) = some (.bitmapUnset 1) := by decide

/-- P2: two samples of one half-row boundary, in either order, leave one OUT. -/
theorem test_decode_order :
    (after (decodeAll [(0x42BF0000, 0x3FC00000), (0x42C10000, 0x3FC00000)] (drawing 3 [(0, 1), (1, 0x80000000)]))).map
        (·.out) = some [⟨95, 1, true, 0xFFFFFFFF⟩, ⟨96, 1, true, 0xFFFFFFFF⟩] ∧
      (after (decodeAll [(0x42C10000, 0x3FC00000), (0x42BF0000, 0x3FC00000)] (drawing 3 [(0, 1), (1, 0x80000000)]))).map
        (·.out) = some [⟨95, 1, true, 0xFFFFFFFF⟩, ⟨96, 1, true, 0xFFFFFFFF⟩] := by decide

/-- R60, R61: the pixel centres of 95_test_vectors.md. -/
theorem test_pixel :
    pixel 0 0 = some (.decode 0x3F000000 0x3F000000) ∧ pixel 129 3 = some (.decode 0x43018000 0x40600000) ∧
      f32Centre 127 = some 0x42FF0000 := by decide

/-! ### Steps -/

/-- R89, R105: a faulted run has no step but the reset input's, which starts a new run (R110). -/
theorem test_faulted_run :
    after (step (presented { State.reset with fault := some .drawIdle } 0x8000000004)) = none ∧
      after (step { drawing 4 [(0, 1)] with fault := some .drawIdle, pending := [.reset] }) = some State.reset := by
  decide

/-- The first step after reset runs the word that was presented. -/
theorem test_first_step :
    after (step (State.reset.withFetchWord 40 0x8000000004)) = some (between (some 4) []) ∧
      faultAfter (step (State.reset.withFetchWord 64 0)) = some (.noDraw 0 0) := by decide

/-! ### Witnesses: the hypotheses of the statements can be met together -/

/-- DecodeEncodeRoundTrip, at the largest operands. -/
theorem witness_roundTrip :
    (Instr.bmpWr 63 0xFFFFFFFF).WellFormed = true ∧ decode (encode (.bmpWr 63 0xFFFFFFFF)) = .ok (.bmpWr 63 0xFFFFFFFF) := by
  decide

/-- EncodeDecodeCanonical: a read with a WDATA that is dropped, and a write. -/
theorem witness_canonical :
    decodeHost 0x7FFFFFFFFF#40 = .ok (.bmpRd 63) ∧ decodeHost 0xFFFFFFFFFF#40 = .ok (.bmpWr 63 0xFFFFFFFF) := by decide

/-- ReservedTransactionsFault: both ends of the reserved addresses and a CTRL value. -/
theorem witness_reserved :
    (∃ e, decodeHost 0x0200000000#40 = .error e) ∧ (∃ e, decodeHost 0xBFFFFFFFFF#40 = .error e) ∧
      (∃ e, decodeHost 0x81FFFFFFFF#40 = .error e) ∧ (presented State.reset 0x81FFFFFFFF#40).fault = none ∧
      (presented State.reset 0x81FFFFFFFF#40).pending = [.transaction (.host 0x81FFFFFFFF#40)] :=
  ⟨⟨_, rfl⟩, ⟨_, rfl⟩, ⟨_, rfl⟩, rfl, rfl⟩

/-- The encoding clauses of the host rules: a word of each row, at the edges of its ignored or operand fields. -/
theorem witness_rows :
    0x80FFFFFFFF#40 &&& 0xFF00000000#40 = 0x8000000000#40 ∧ 0x00FFFFFFFF#40 &&& 0xFF00000000#40 = 0x0000000000#40 ∧
      0x01FFFFFFFF#40 &&& 0xFF00000000#40 = 0x0100000000#40 ∧ 0xFFFFFFFFFF#40 &&& 0xC000000000#40 = 0xC000000000#40 ∧
      0x7FFFFFFFFF#40 &&& 0xC000000000#40 = 0x4000000000#40 := by decide

/-- ScaleWriteFollowsItsRule and ReadAfterWriteReturnsTheValue: each clause, with the smallest and largest scales. -/
theorem witness_scaleWr :
    (drawing 4 []).draw = true ∧ (between none []).draw = false ∧ (0 : Word) = 0 ∧
      (1 : Word) ≠ 0 ∧ (0xFFFFFFFF : Word) ≠ 0 ∧
      (after (exec (.scaleWr 0xFFFFFFFF) (between none []))).map (·.scale) = some (some 0xFFFFFFFF) := by decide

/-- ScaleReadFollowsItsRule: SCALE unset and set. -/
theorem witness_scaleRd : State.reset.scale = none ∧ (drawing 0xFFFFFFFF []).scale = some 0xFFFFFFFF := by decide

/-- DrawBeginFollowsItsRule and SideEffectsOfHostOperations: each clause of DRAW_BEGIN. -/
theorem witness_drawBegin :
    (drawing 1 []).draw = true ∧ (between none []).draw = false ∧ (between none []).scale = none ∧
      (between (some 1) []).draw = false ∧ (between (some 1) []).scale ≠ none ∧ (between (some 1) []).inflight = [] ∧
      (between (some 1) []).fault = none := by
  decide

/-- DrawEndFollowsItsRule and SideEffectsOfHostOperations: no draw call, an empty INFLIGHT, and a sample that drains. -/
theorem witness_drawEnd :
    State.reset.draw = false ∧ (drawing 1 []).draw = true ∧ (drawing 1 []).inflight = [] ∧
      (drawing 1 []).fault = none ∧ ∃ es, collectEvents (drawing 1 [(0, 1)]) [0x3F0000003F000000#64] = .ok es := by
  exact ⟨rfl, rfl, rfl, rfl, ⟨_, rfl⟩⟩

/-- DrawEndFollowsItsRule, its last clause: two accepted samples, each with the event of its DECODE. -/
theorem witness_drawEnd_samples :
    let s := { drawing 1 [(0, 0x80000000)] with inflight := [0x3F0000003F000000#64, 0x3FC000003F000000#64] }
    s.draw = true ∧ List.Forall₂ (fun w e =>
      ∃ t, exec (.decode (w.extractLsb' 32 32) (w.extractLsb' 0 32)) s = .next t ∧ GainsEvent s t e) s.inflight
      [⟨0, 0, true, 0xFFFFFFFF⟩, ⟨1, 0, false, 0x000000FF⟩] := by
  exact ⟨rfl, .cons (decode_gainsEvent.2 rfl) (.cons (decode_gainsEvent.2 rfl) .nil)⟩

/-- BitmapWriteFollowsItsRule, ReadAfterWriteReturnsTheValue and SideEffectsOfHostOperations: the lowest and highest word, another word set. -/
theorem witness_bmpWr :
    (drawing 1 []).draw = true ∧ (between none [(0, 7)]).draw = false ∧ (0 : BitVec 6) ≠ 63 ∧
      (between none [(0, 7)]).bmp.read (0 : BitVec 6).toNat = some 7 ∧
      (after (exec (.bmpWr 63 1) (between none [(0, 7)]))).map (·.bmp.read 63) = some (some 1) := by decide

/-- BitmapReadFollowsItsRule: a ⊥ word and the highest word. -/
theorem witness_bmpRd :
    State.reset.bmp.read (0 : BitVec 6).toNat = none ∧
      (drawing 1 [(63, 9)]).bmp.read (63 : BitVec 6).toNat = some 9 := by decide

/-- SideEffectsOfHostOperations, its first clauses: a read, and a DECODE, that complete. -/
theorem witness_sideEffects :
    (between (some 4) []).fault = none ∧
      after (exec .scaleRd (between (some 4) [])) = some { between (some 4) [] with rdata := [4] } ∧
      (after (exec .scaleRd { between (some 4) [] with rdata := [4] })).map (·.rdata) = some [4, 4] ∧
      (after (exec (.decode 0 0) (drawing 1 [(0, 0)]))).isSome = true := by decide

/-- TruncationIsTheExactFloor: an infinity, a negative subnormal, and the largest value below 2^32. -/
theorem witness_trunc :
    F32Invalid 0x7F800000 ∧ F32Invalid 0x80000001 ∧ ¬ F32Invalid 0x80000000 ∧ ¬ F32Invalid 0x4F7FFFFF ∧
      f32Value 0x3FC00000 = some (3 / 2) := by
  refine ⟨by decide, by decide, by decide, by decide, ?_⟩
  norm_num [f32Value, show f32Exponent 0x3FC00000 = 127 by decide, show f32Sign 0x3FC00000 = false by decide,
    show f32Fraction 0x3FC00000 = 4194304 by decide]

/-- PixelCentreTruncatesToItsPixel: the first and the last pixel that have an encoding. -/
theorem witness_pixelCentre :
    f32Centre 0 = some 0x3F000000 ∧ f32Centre (2 ^ 23 - 1) = some 0x4AFFFFFF ∧ f32Centre (2 ^ 23) = none := by decide

/-- DatapathValuesFitTheirWidths: both half-rows, at scale 1 and at the last pixel. -/
theorem witness_widths :
    1 ≤ 1 ∧ inDomain 1 63 31 = true ∧ divide 31 1 ≤ 31 ∧ inDomain 1 32 0 = true ∧ 32 ≤ divide 32 1 := by decide

/-- IndexerInBitFields: the last column and row. -/
theorem witness_bitFields : 63 < 64 ∧ 31 < 32 := by decide

/-- DecodeEmitsTheEventOfItsPixel and DecodeReadsOneBitmapWord, at the last pixel of scale 4. -/
theorem witness_decode :
    (drawing 4 [(63, 1)]).draw = true ∧ (drawing 4 [(63, 1)]).scale = some 4 ∧ trunc32 0x437F8000 = .ok 255 ∧
      trunc32 0x42FF0000 = .ok 127 ∧ 255 < 64 * (4 : Word).toNat ∧ 127 < 32 * (4 : Word).toNat ∧
      (drawing 4 [(63, 1)]).bmp.read (255 / (4 : Word).toNat / 32 + 2 * (127 / (4 : Word).toNat)) = some 1 ∧
      (drawing 4 [(0, 5), (63, 1)]).bmp.read (255 / (4 : Word).toNat / 32 + 2 * (127 / (4 : Word).toNat)) = some 1 := by
  decide

/-- DecodeFaultsInOrder: each clause, the range clause at its first coordinate on both axes and at 2^32. -/
theorem witness_decodeFaults :
    (between (some 1) []).draw = false ∧ (drawing 1 []).draw = true ∧ (drawing 1 []).scale = some 1 ∧
      F32Invalid 0xBF000000 ∧ ¬ F32Invalid 0x3F000000 ∧ F32Invalid 0x7FC00000 ∧
      trunc32 0x42800000 = .ok 64 ∧ 64 * (1 : Word).toNat ≤ 64 ∧ trunc32 0x42000000 = .ok 32 ∧
      32 * (1 : Word).toNat ≤ 32 ∧ trunc32 0x4F800000 = .ok (2 ^ 32) ∧ trunc32 0x427E0000 = .ok 63 ∧
      63 < 64 * (1 : Word).toNat ∧ (drawing 1 []).bmp.read (63 / (1 : Word).toNat / 32 + 2 * (0 / (1 : Word).toNat)) = none := by
  decide

/-- ScalingProducesUniformBlocks: two corners of the block of logical pixel (31, 0) at scale 3 (S1), written and not. -/
theorem witness_block :
    (drawing 3 [(0, 1)]).draw = true ∧ (drawing 3 [(0, 1)]).scale = some 3 ∧ trunc32 0x42BA0000 = .ok 93 ∧
      trunc32 0x3F000000 = .ok 0 ∧ trunc32 0x42BF0000 = .ok 95 ∧ trunc32 0x40200000 = .ok 2 ∧
      inDomain (3 : Word).toNat 93 0 = true ∧ inDomain (3 : Word).toNat 95 2 = true ∧
      93 / (3 : Word).toNat = 95 / (3 : Word).toNat ∧ 0 / (3 : Word).toNat = 2 / (3 : Word).toNat := by decide

/-- DecodeIsPure: two different states with one configuration. -/
theorem witness_pure :
    (drawing 1 [(0, 1)]).draw = { drawing 1 [(0, 1)] with rdata := [7] }.draw ∧
      (drawing 1 [(0, 1)]).bmp = { drawing 1 [(0, 1)] with rdata := [7] }.bmp ∧
      drawing 1 [(0, 1)] ≠ { drawing 1 [(0, 1)] with rdata := [7] } := by decide

/-- DecodeOrderDoesNotMatter: a list and a rearrangement of it that decode without a fault. -/
theorem witness_order :
    [((0, 0) : Word × Word), (0x3F800000, 0)].Perm [(0x3F800000, 0), (0, 0)] ∧
      ((after (decodeAll [(0, 0), (0x3F800000, 0)] (drawing 1 [(0, 1)]))).map (·.fault)) = some none :=
  ⟨.swap _ _ _, by decide⟩

/-- WrittenBitIsDisplayedAtItsPixel: bit 0 of the last word is the last pixel, and bit 31 of word 0 the first. -/
theorem witness_written :
    (between (some 4) []).draw = false ∧ (between (some 4) []).scale = some 4 ∧ (4 : Word) ≠ 0 ∧ 0 < 32 ∧
      trunc32 0x437F8000 = .ok 255 ∧ trunc32 0x42FF0000 = .ok 127 ∧
      255 / (4 : Word).toNat = 32 * ((63 : BitVec 6).toNat % 2) + (31 - 0) ∧
      127 / (4 : Word).toNat = (63 : BitVec 6).toNat / 2 ∧
      0 / (4 : Word).toNat = 32 * ((0 : BitVec 6).toNat % 2) + (31 - 31) := by decide

/-- OnlyFaultedRunsStop, FirstFaultIsRecordedAlone: a faulted run with no reset, a run that has not faulted, a reset. -/
theorem witness_stop :
    ({ State.reset with fault := some .drawIdle } : State).fault = some .drawIdle ∧
      NotReset { State.reset with fault := some .drawIdle } ∧ State.reset.fault = none ∧
      ¬ NotReset { State.reset with pending := [.reset] } :=
  ⟨rfl, (fun _ h => by simp [State.reset] at h), rfl, (fun h => h [] rfl)⟩

/-- FaultingOperationHasNoOtherEffect: an operation that faults, and one on a run that has. -/
theorem witness_faulting :
    State.reset.fault = none ∧ after (exec .drawEnd State.reset) = some { State.reset with fault := some .drawIdle } ∧
      after (exec .ctrlRd { State.reset with fault := some .drawIdle }) =
        some { State.reset with fault := some .drawIdle, rdata := [0] } := by decide

/-- OperationsRaiseOnlyTheirFaults, EveryStepKeepsTheInvariant: a state that meets the invariant in a draw call. -/
theorem witness_invariant : BlockInv (drawing 1 [(0, 0), (63, 1)]) :=
  ⟨by decide, fun _ => by decide, rfl, by decide, by decide, fun e h => by simp [drawing, State.reset] at h⟩

theorem witness_raises :
    (drawing 1 [(0, 0), (63, 1)]).fault = none ∧
      faultAfter (exec .drawBegin (drawing 1 [(0, 0), (63, 1)])) = some .drawNested ∧
      (after (step (presented (drawing 1 [(0, 0), (63, 1)]) 0x8100000000))).isSome = true := by decide

/-- OperationsWriteOnlyTheirState: a write of one word with another word set. -/
theorem witness_writes :
    (between none [(0, 7)]).inflight = [] ∧ (after (exec (.bmpWr 63 1) (between none [(0, 7)]))).isSome = true ∧
      0 ≠ (63 : BitVec 6).toNat := by decide

/-- ConfigurationIsFrozenInADrawCall, OutGrowsOnlyBySamplesInADrawCall: a sample presented in a draw call. -/
theorem witness_frozen :
    (drawing 1 [(0, 1)]).draw = true ∧ NotReset ((drawing 1 [(0, 1)]).present (.sample 0)) ∧
      ((drawing 1 [(0, 1)]).present (.sample 0)).inflight = [] ∧
      outAfter (step ((drawing 1 [(0, 1)]).present (.sample 0))) = [⟨0, 0, false, 0x000000FF⟩] :=
  ⟨rfl, (fun _ h => by simp [State.present, drawing, State.reset] at h), rfl, by decide⟩

/-- StepRunsTheDecodedOperation, PresentedTableWordRunsNext. -/
theorem witness_step :
    (presented State.reset 0x8000000004).pending = [.transaction (.host 0x8000000004)] ∧
      (presented State.reset 0x8000000004).fault = none ∧ decode (.host 0x8000000004#40) = .ok (.scaleWr 4) ∧
      (Instr.scaleWr 4).WellFormed = true ∧ decodeTableWord 40 0x8000000004 = some (.scaleWr 4) := by decide

/-- StepRunsTheDecodedOperation, its rejected word: both ends of the reserved addresses and a CTRL value, each presented
in a run that has not faulted. -/
theorem witness_step_rejected :
    (presented (drawing 1 []) 0x8200000000).fault = none ∧
      (presented (drawing 1 []) 0x8200000000).pending = [.transaction (.host 0x8200000000)] ∧
      (∃ e, decodeHost 0x8200000000#40 = .error e) ∧ (∃ e, decodeHost 0x3F00000000#40 = .error e) ∧
      (∃ e, decodeHost 0x8100000002#40 = .error e) ∧
      after (step (presented (drawing 1 []) 0x8200000000)) =
        some { drawing 1 [] with fault := some (.reserved 0x8200000000) } :=
  ⟨rfl, rfl, ⟨_, rfl⟩, ⟨_, rfl⟩, ⟨_, rfl⟩, by decide⟩

/-- OnlyFaultedRunsStop, its idle clause: a draw call in flight with nothing presented. -/
theorem witness_idle :
    (drawing 1 [(0, 1)]).pending = [] ∧ (drawing 1 [(0, 1)]).fault = none ∧
      after (step (drawing 1 [(0, 1)])) = some (drawing 1 [(0, 1)]) := by decide

/-- ResetStartsANewRun: a faulted draw call with the reset input next. -/
theorem witness_reset :
    { drawing 1 [(0, 1)] with fault := some .drawNested, pending := [.reset] }.pending = [.reset] := by decide

/-- RunEndsSuccessfullyWithItsDrawEnd: a run that ends with its DRAW_END, which is a HOST transaction still pending, and a
faulted run. -/
theorem witness_end :
    (presented (drawing 1 []) 0x8100000000).draw = true ∧ (presented (drawing 1 []) 0x8100000000).fault = none ∧
      (presented (drawing 1 []) 0x8100000000).inflight = [] ∧
      (presented (drawing 1 []) 0x8100000000).pending = [.transaction (.host 0x8100000000)] ∧
      (State.reset.afterFault .drawIdle).fault = some .drawIdle := by decide

end Sys2Proof.Machine.Tests
end

/-! PROOFS of the family 10_state: what the state keeps and how it changes. First what one operation can do, said once
(`ExecEffect`), then the rules about single operations, then the statements. -/

namespace Sys2Proof.Machine

/-! ### What one operation can do -/

/-- What one operation can do to the state `s`: take a fault, or complete with the one effect its rule gives it, under
the conditions of that rule. `exec_effect` ties it to `exec`. -/
inductive ExecEffect (s : State) : Instr → State → Prop where
  /-- The operation is abandoned with a fault (R89). -/
  | fault (i : Instr) (r : FaultRecord) : ExecEffect s i (s.raiseFault r)
  /-- SCALE_RD, CTRL_RD or BMP_RD returns a value (R81, R82, R86). -/
  | respond {i : Instr} (v : Word) (isRead : i = .scaleRd ∨ i = .ctrlRd ∨ ∃ n, i = .bmpRd n) :
      ExecEffect s i (s.respond v)
  /-- SCALE_WR stores its value (R80). -/
  | setScale {v : Word} (idle : s.draw = false) (legal : v ≠ 0) : ExecEffect s (.scaleWr v) (s.setScale v)
  /-- BMP_WR stores its value (R85). -/
  | setBmp {n : BitVec 6} {v : Word} (idle : s.draw = false) : ExecEffect s (.bmpWr n v) (s.setBmp n.toNat v)
  /-- DRAW_BEGIN opens a draw call (R83). -/
  | openDraw (idle : s.draw = false) (scaleSet : s.scale ≠ none) : ExecEffect s .drawBegin (s.setDraw true)
  /-- DRAW_END drains INFLIGHT and closes the draw call (R84). -/
  | closeDraw {es : List Event} (drawing : s.draw = true) (drains : collectEvents s s.inflight = .ok es) :
      ExecEffect s .drawEnd { (s.emitAll es).setDraw false with inflight := [] }
  /-- DECODE emits the event of its sample (R62). -/
  | emit {x y : Word} {e : Event} (result : sampleResult s x y = .ok e) : ExecEffect s (.decode x y) (s.emit e)

/-- Whatever `exec` answers is one of the effects. -/
theorem exec_effect {i : Instr} {s t : State} (h : exec i s = .next t) : ExecEffect s i t := by
  cases i with
  | scaleRd =>
    obtain ⟨-, rfl⟩ | ⟨v, -, rfl⟩ := execScaleRd_cases h
    · exact .fault _ _
    · exact .respond v (.inl rfl)
  | ctrlRd =>
    obtain rfl : s.respond (ctrlValue s) = t := by simpa [exec, execCtrlRd] using h
    exact .respond _ (.inr (.inl rfl))
  | bmpRd n =>
    obtain ⟨-, rfl⟩ | ⟨v, -, rfl⟩ := execBmpRd_cases h
    · exact .fault _ _
    · exact .respond v (.inr (.inr ⟨n, rfl⟩))
  | scaleWr v =>
    obtain ⟨-, rfl⟩ | ⟨-, -, rfl⟩ | ⟨hd, hv, rfl⟩ := execScaleWr_cases h
    · exact .fault _ _
    · exact .fault _ _
    · exact .setScale hd hv
  | drawEnd =>
    obtain ⟨-, rfl⟩ | ⟨-, r, -, rfl⟩ | ⟨hd, es, hes, rfl⟩ := execDrawEnd_cases h
    · exact .fault _ _
    · exact .fault _ r
    · exact .closeDraw hd hes
  | drawBegin =>
    obtain ⟨-, rfl⟩ | ⟨-, -, rfl⟩ | ⟨hd, hs, rfl⟩ := execDrawBegin_cases h
    · exact .fault _ _
    · exact .fault _ _
    · exact .openDraw hd hs
  | bmpWr n v =>
    obtain ⟨-, rfl⟩ | ⟨hd, rfl⟩ := execBmpWr_cases h
    · exact .fault _ _
    · exact .setBmp hd
  | decode x y =>
    obtain ⟨r, -, rfl⟩ | ⟨e, he, rfl⟩ := execDecode_cases h
    · exact .fault _ r
    · exact .emit he

/-! ### Faults -/

/-- `raiseFault` is the state R89 describes. -/
theorem State.raiseFault_eq_afterFault (r : FaultRecord) (s : State) : s.raiseFault r = s.afterFault r := by
  obtain ⟨_, _, _, _, _ | q, _, _, _⟩ := s <;> rfl

/-- An operation that does not take a fault leaves FAULT alone. -/
theorem ExecEffect.raises_or_fault_eq {i : Instr} {s t : State} (h : ExecEffect s i t) :
    (∃ r, t = s.raiseFault r) ∨ t.fault = s.fault := by
  cases h with
  | fault _ r => exact .inl ⟨r, rfl⟩
  | respond | setScale | setBmp | openDraw | emit => exact .inr rfl
  | closeDraw => exact .inr (by simp)

/-- Settles O28: an operation takes a fault, and then changes FAULT alone and only if it was none, or it leaves FAULT
as it was. -/
theorem faultingOperationHasNoOtherEffect : Obligations.FaultingOperationHasNoOtherEffect := by
  unfold Obligations.FaultingOperationHasNoOtherEffect
  intro i s t r h
  obtain ⟨q, rfl⟩ | hf := (exec_effect h).raises_or_fault_eq
  · refine ⟨fun hn hr => ?_, fun hs => by rwa [State.raiseFault_of_some q hs]⟩
    obtain rfl : q = r := by simpa [hn] using hr
    exact State.raiseFault_of_none q hn
  · exact ⟨fun hn hr => by simp [hf, hn] at hr, fun hs => hf.trans hs⟩

/-! ### The invariant, one rule per state operation -/

/-- The invariant speaks of SCALE, DRAW, INFLIGHT, BMP and OUT alone. -/
theorem BlockInv.congr {s t : State} (h : BlockInv s) (hscale : t.scale = s.scale) (hdraw : t.draw = s.draw)
    (hinflight : t.inflight = s.inflight) (hbmp : t.bmp = s.bmp) (hout : t.out = s.out) : BlockInv t where
  scaleLegal := hscale ▸ h.scaleLegal
  scaleSet := by rw [hdraw, hscale]; exact h.scaleSet
  drained := hinflight.trans h.drained
  bmpWf := hbmp ▸ h.bmpWf
  outWf := hout ▸ h.outWf
  coloured := hout ▸ h.coloured

theorem BlockInv.withPending {s : State} (h : BlockInv s) (rest : List Input) :
    BlockInv { s with pending := rest } :=
  h.congr rfl rfl rfl rfl rfl

theorem BlockInv.raiseFault {s : State} (h : BlockInv s) (r : FaultRecord) : BlockInv (s.raiseFault r) :=
  h.congr (by simp) (by simp) (by simp) (by simp) (by simp)

theorem BlockInv.respond {s : State} (h : BlockInv s) (v : Word) : BlockInv (s.respond v) :=
  h.congr rfl rfl rfl rfl rfl

theorem BlockInv.setScale {s : State} (h : BlockInv s) {v : Word} (hv : v ≠ 0) : BlockInv (s.setScale v) :=
  { h with
    scaleLegal := by simpa using hv
    scaleSet := by simp }

theorem BlockInv.setBmp {s : State} (h : BlockInv s) (n : BitVec 6) (v : Word) : BlockInv (s.setBmp n.toNat v) :=
  { h with bmpWf := Memory.wf_write h.bmpWf n.isLt }

theorem BlockInv.setDraw {s : State} (h : BlockInv s) {b : Bool} (hb : b = true → s.scale ≠ none) :
    BlockInv (s.setDraw b) :=
  { h with scaleSet := hb }

theorem BlockInv.emit {s : State} (h : BlockInv s) {e : Event} (he : Event.Coloured e) : BlockInv (s.emit e) :=
  { h with
    outWf := Output.wf_insert e h.outWf
    coloured := fun f hf => ((Output.mem_insert e f s.out).1 hf).elim (· ▸ he) (h.coloured f) }

theorem BlockInv.emitAll {es : List Event} {s : State} (h : BlockInv s) (hes : ∀ e ∈ es, Event.Coloured e) :
    BlockInv (s.emitAll es) := by
  induction es generalizing s with
  | nil => exact h
  | cons e es ih =>
    obtain ⟨he, hes⟩ := List.forall_mem_cons.1 hes
    exact ih (h.emit he) hes

/-- The reset input establishes the invariant (R29, R110). -/
theorem blockInv_applyReset (rest : List Input) : BlockInv (State.applyReset rest) where
  scaleLegal := by simp
  scaleSet := by simp
  drained := rfl
  bmpWf := Memory.wf_nil
  outWf := .nil
  coloured := by simp

/-- Every operation keeps the invariant. -/
theorem BlockInv.of_exec {i : Instr} {s t : State} (h : BlockInv s) (he : exec i s = .next t) : BlockInv t := by
  cases exec_effect he with
  | fault _ r => exact h.raiseFault r
  | respond v => exact h.respond v
  | setScale _ hv => exact h.setScale hv
  | setBmp => exact h.setBmp _ _
  | openDraw _ hs => exact h.setDraw fun _ => hs
  | closeDraw _ hes =>
    have hclosed := (h.emitAll (collectEvents_coloured hes)).setDraw (b := false) (by simp)
    exact { hclosed with drained := rfl }
  | emit hr => exact h.emit (sampleResult_coloured hr)

/-- Settles O36: right after reset is the reset input's state with nothing left to perform. -/
theorem resetMeetsTheInvariant : Obligations.ResetMeetsTheInvariant :=
  blockInv_applyReset []

/-- Settles O37, by the cases of a step: reset establishes the invariant, idling, an operation and the fault of a
rejected word keep it. -/
theorem everyStepKeepsTheInvariant : Obligations.EveryStepKeepsTheInvariant := by
  unfold Obligations.EveryStepKeepsTheInvariant
  intro s t h hstep
  obtain ⟨rest, -, rfl⟩ | ⟨-, -, rfl⟩ | ⟨-, rest, i, -, -, -, he⟩ | ⟨-, rest, e, -, -, -, rfl⟩ := step_cases hstep
  · exact blockInv_applyReset rest
  · exact h
  · exact (h.withPending rest).of_exec he
  · exact (h.withPending rest).raiseFault _

/-! ### What changes during a draw call -/

/-- No operation writes SCALE or BMP while DRAW = 1 (R80, R85). -/
theorem exec_config_of_draw {i : Instr} {s t : State} (hd : s.draw = true) (h : exec i s = .next t) :
    t.scale = s.scale ∧ t.bmp = s.bmp := by
  cases exec_effect h with
  | fault | closeDraw => simp
  | respond | openDraw | emit => exact ⟨rfl, rfl⟩
  | setScale idle | setBmp idle => simp [hd] at idle

/-- Settles O31: short of reset a step idles, performs an operation or faults, and none of these writes SCALE or BMP
while DRAW = 1. -/
theorem configurationIsFrozenInADrawCall : Obligations.ConfigurationIsFrozenInADrawCall := by
  unfold Obligations.ConfigurationIsFrozenInADrawCall
  intro s t hd hreset hstep
  obtain ⟨rest, hp, -⟩ | ⟨-, -, rfl⟩ | ⟨-, rest, i, -, -, -, he⟩ | ⟨-, rest, e, -, -, -, rfl⟩ := step_cases hstep
  · exact absurd hp (hreset rest)
  · exact ⟨rfl, rfl⟩
  · exact exec_config_of_draw (s := { s with pending := rest }) hd he
  · simp

/-- With INFLIGHT empty, only DECODE in a draw call changes OUT, and it adds one event (R62, R78). -/
theorem exec_out_cases {i : Instr} {s t : State} (hi : s.inflight = []) (h : exec i s = .next t) :
    t.out = s.out ∨ ∃ x y e, i = .decode x y ∧ s.draw = true ∧ t.out = Output.insert e s.out := by
  cases exec_effect h with
  | fault => simp
  | respond | setScale | setBmp | openDraw => exact .inl rfl
  | closeDraw _ drains =>
    obtain rfl : [] = _ := by simpa [hi, collectEvents] using drains
    exact .inl rfl
  | emit hr => exact .inr ⟨_, _, _, rfl, (sampleResult_ok.1 hr).1, rfl⟩

/-- Only a sample decodes to DECODE (R54). -/
theorem sample_of_decode_eq_decode {tr : Transaction} {x y : Word} (h : decode tr = .ok (.decode x y)) :
    ∃ w, tr = .sample w := by
  cases tr with
  | sample w => exact ⟨w, rfl⟩
  | host h' =>
    simp only [decode, decodeHost] at h
    split_ifs at h <;> cases h

/-- Settles O32: short of reset only an operation can change OUT, and then it is the DECODE of a sample. -/
theorem outGrowsOnlyBySamplesInADrawCall : Obligations.OutGrowsOnlyBySamplesInADrawCall := by
  unfold Obligations.OutGrowsOnlyBySamplesInADrawCall
  intro s t hi hreset hstep
  obtain ⟨rest, hp, -⟩ | ⟨-, -, rfl⟩ | ⟨tr, rest, i, hp, -, hdec, he⟩ | ⟨-, rest, e, -, -, -, rfl⟩ := step_cases hstep
  · exact absurd hp (hreset rest)
  · exact .inl rfl
  · obtain hout | ⟨x, y, e, rfl, hd, hout⟩ := exec_out_cases (s := { s with pending := rest }) hi he
    · exact .inl hout
    · obtain ⟨w, rfl⟩ := sample_of_decode_eq_decode hdec
      exact .inr ⟨w, rest, e, hp, hd, fun f => by simp only [hout, Output.count_insert, eq_comm]⟩
  · simp

/-! ### DECODE and the bitmap -/

/-- The datapath fetches one word of the buffer, the one at the sample's index (R69). -/
theorem unpackPixel_congr {m m' : Memory} {s px py : Nat}
    (h : m.read (wordIndex (divide px s) (divide py s)) = m'.read (wordIndex (divide px s) (divide py s))) :
    unpackPixel m s px py = unpackPixel m' s px py := by
  unfold unpackPixel bmpFetch
  rw [h]

/-- In two states that agree on DRAW, SCALE and the word at the sample's index, a sample has one result. -/
theorem sampleResult_congr_word {s s' : State} {x y sc : Word} {px py : Nat} (hd : s.draw = s'.draw)
    (hs : s.scale = some sc) (hs' : s'.scale = some sc) (hx : trunc32 x = .ok px) (hy : trunc32 y = .ok py)
    (hw : s.bmp.read (wordIndex (divide px sc.toNat) (divide py sc.toNat)) =
      s'.bmp.read (wordIndex (divide px sc.toNat) (divide py sc.toNat))) :
    sampleResult s x y = sampleResult s' x y := by
  simp only [sampleResult, laneEvaluate, hd, hs, hs', hx, hy, unpackPixel_congr hw]

/-- DECODE of a sample with a fault takes that fault. -/
theorem exec_decode_of_error {s : State} {x y : Word} {r : FaultRecord} (h : sampleResult s x y = .error r) :
    exec (.decode x y) s = .next (s.afterFault r) := by
  simp [exec, execDecode, h, raise, State.raiseFault_eq_afterFault]

/-- Where a sample has one result in two states, DECODE does the same in both: one event or one fault. -/
theorem exec_decode_agree {s s' : State} {x y : Word} (h : sampleResult s x y = sampleResult s' x y) :
    (∃ e t t', exec (.decode x y) s = .next t ∧ exec (.decode x y) s' = .next t' ∧
      GainsEvent s t e ∧ GainsEvent s' t' e) ∨
    (∃ r, exec (.decode x y) s = .next (s.afterFault r) ∧ exec (.decode x y) s' = .next (s'.afterFault r)) := by
  cases hr : sampleResult s x y with
  | ok e =>
    obtain ⟨t, ht, hg⟩ := decode_gainsEvent.2 hr
    obtain ⟨t', ht', hg'⟩ := decode_gainsEvent.2 (h.symm.trans hr)
    exact .inl ⟨e, t, t', ht, ht', hg, hg'⟩
  | error r => exact .inr ⟨r, exec_decode_of_error hr, exec_decode_of_error (h.symm.trans hr)⟩

/-- Settles O23: the result of the sample depends on the one word fetched, and DECODE on that result. -/
theorem decodeReadsOneBitmapWord : Obligations.DecodeReadsOneBitmapWord := by
  unfold Obligations.DecodeReadsOneBitmapWord
  intro x y sc px py s s' hd hs hs' hx hy hw
  exact exec_decode_agree (sampleResult_congr_word hd hs hs' hx hy hw)

/-- The pixel of bit `b` of word `i` fetches word `i` (R22, R66). -/
theorem wordIndex_pixelOfBit (i b : Nat) : wordIndex (32 * (i % 2) + (31 - b)) (i / 2) = i := by
  simp only [wordIndex, Config.bitsPerWord, Config.wordsPerRow]
  omega

/-- The pixel of bit `b` of any word tests bit `b` (R22, R67). -/
theorem bitPosition_pixelOfBit {b : Nat} (half : Nat) (hb : b < 32) : bitPosition (32 * half + (31 - b)) = b := by
  simp only [bitPosition, Config.bitsPerWord]
  omega

/-- A BMP_WR between draw calls completes (R85). -/
theorem exec_bmpWr_of_idle {s : State} (i : BitVec 6) (v : Word) (hd : s.draw = false) :
    exec (.bmpWr i v) s = .next (s.setBmp i.toNat v) := by
  simp [exec, execBmpWr, hd]

/-- A DRAW_BEGIN between draw calls with a scale set completes (R83). -/
theorem exec_drawBegin_of_idle {s : State} {sc : Word} (hd : s.draw = false) (hs : s.scale = some sc) :
    exec .drawBegin s = .next (s.setDraw true) := by
  simp [exec, execDrawBegin, hd, hs]

/-- In a draw call, a sample in the logical pixel of bit `b` of a written word `BMP[i]` has the event with bit `b` of
that word (R22, R62). -/
theorem sampleResult_pixelOfBit {s : State} {sc x y v : Word} {i b px py : Nat} (hd : s.draw = true)
    (hs : s.scale = some sc) (hsc : sc ≠ 0) (hi : i < 64) (hb : b < 32) (hread : s.bmp.read i = some v)
    (hx : trunc32 x = .ok px) (hy : trunc32 y = .ok py) (hpx : px < 2 ^ 32) (hpy : py < 2 ^ 32)
    (hlx : divide px sc.toNat = 32 * (i % 2) + (31 - b)) (hly : divide py sc.toNat = i / 2) :
    sampleResult s x y = .ok (mkEvent px py (v.getLsbD b)) := by
  have hpos : 0 < sc.toNat := by bv_omega
  have hdom : inDomain sc.toNat px py = true :=
    (inDomain_iff _ _ _).2
      ⟨(divide_lt_iff px 64 hpos).1 (by omega), (divide_lt_iff py 32 hpos).1 (by omega), hpx, hpy⟩
  refine sampleResult_ok.2 ⟨hd, sc, px, py, hs, hx, hy, unpackPixel_ok.2 ⟨hdom, v, ?_, ?_⟩⟩
  · rw [hlx, hly, wordIndex_pixelOfBit, hread]
  · rw [hlx, bitPosition_pixelOfBit _ hb, bitTest_eq_getLsbD]

/-- Settles O25: the write and DRAW_BEGIN complete, and the sample then fetches the word written. -/
theorem writtenBitIsDisplayedAtItsPixel : Obligations.WrittenBitIsDisplayedAtItsPixel := by
  unfold Obligations.WrittenBitIsDisplayedAtItsPixel
  intro s sc i v x y b px py hd hs hsc hb hx hy hpx hpy hlx hly
  have hresult : sampleResult ((s.setBmp i.toNat v).setDraw true) x y = .ok (mkEvent px py (v.getLsbD b)) :=
    sampleResult_pixelOfBit rfl hs hsc i.isLt hb (Memory.read_write_self _ _ _) hx hy hpx hpy hlx hly
  obtain ⟨w, hw, hgain⟩ := decode_gainsEvent.2 hresult
  exact ⟨_, _, w, _, exec_bmpWr_of_idle i v hd, exec_drawBegin_of_idle hd hs, hw, hgain,
    Nat.mod_eq_of_lt hpx, Nat.mod_eq_of_lt hpy, rfl⟩

end Sys2Proof.Machine

/-! PROOFS of the family 20_memory: what a read returns after a write, which operations have a side effect, and what a
step does with a decoded or a rejected transaction. First the case equations of `exec` that are missing above, then the
statements. -/

namespace Sys2Proof.Machine

/-! ### The case equations of the host operations -/

/-- SCALE_RD of a written SCALE returns it (R81). -/
theorem exec_scaleRd_of_some {s : State} {v : Word} (h : s.scale = some v) :
    exec .scaleRd s = .next (s.respond v) := by
  simp [exec, execScaleRd, h]

/-- CTRL_RD always returns CTRL (R82). -/
theorem exec_ctrlRd (s : State) : exec .ctrlRd s = .next (s.respond (ctrlValue s)) := rfl

/-- BMP_RD of a written word returns it (R86). -/
theorem exec_bmpRd_of_some {s : State} {i : BitVec 6} {v : Word} (h : s.bmp.read i.toNat = some v) :
    exec (.bmpRd i) s = .next (s.respond v) := by
  simp [exec, execBmpRd, h]

/-- A SCALE_WR of a legal value between draw calls completes (R80). -/
theorem exec_scaleWr_of_idle {s : State} {v : Word} (hd : s.draw = false) (hv : v ≠ 0) :
    exec (.scaleWr v) s = .next (s.setScale v) := by
  rw [exec, execScaleWr, if_neg (by simp [hd]), if_neg hv]

/-- A DRAW_BEGIN inside a draw call faults (R83). -/
theorem exec_drawBegin_of_drawing {s : State} (hd : s.draw = true) :
    exec .drawBegin s = .next (s.raiseFault .drawNested) := by
  simp [exec, execDrawBegin, hd, raise]

/-- A DRAW_END between draw calls faults (R84). -/
theorem exec_drawEnd_of_idle {s : State} (hd : s.draw = false) :
    exec .drawEnd s = .next (s.raiseFault .drawIdle) := by
  simp [exec, execDrawEnd, hd, raise]

/-- A DRAW_END with nothing in flight only closes the draw call (R84). -/
theorem exec_drawEnd_of_drained {s : State} (hd : s.draw = true) (hi : s.inflight = []) :
    exec .drawEnd s = .next (s.setDraw false) := by
  simp [exec, execDrawEnd, hd, hi, collectEvents, State.emitAll, State.setDraw]

/-! ### Reads after writes -/

/-- Settles O13: the write completes with the value stored, and the read returns what the buffer's law of a read after
a write says is there. -/
theorem readAfterWriteReturnsTheValue : Obligations.ReadAfterWriteReturnsTheValue := by
  unfold Obligations.ReadAfterWriteReturnsTheValue
  refine ⟨fun v s hd hv => ?_, fun i v s hd => ?_, fun i j v w s hd hne hw => ?_⟩
  · exact ⟨_, _, exec_scaleWr_of_idle hd hv, exec_scaleRd_of_some rfl, rfl⟩
  · exact ⟨_, _, exec_bmpWr_of_idle i v hd, exec_bmpRd_of_some (Memory.read_write_self _ _ _), rfl⟩
  · have hread : (s.setBmp i.toNat v).bmp.read j.toNat = some w :=
      (Memory.read_write_of_ne _ v (mt BitVec.eq_of_toNat_eq hne)).trans hw
    exact ⟨_, _, exec_bmpWr_of_idle i v hd, exec_bmpRd_of_some hread, rfl⟩

/-! ### Side effects -/

/-- Writing one value to one word twice is writing it once. It needs no canonical form: the second write stops at the
cell the first one left. -/
theorem Memory.write_write_self (m : Memory) (i : Nat) (v : Word) : (m.write i v).write i v = m.write i v := by
  induction m with
  | nil => simp [Memory.write]
  | cons c m ih =>
    obtain ⟨k, w⟩ := c
    by_cases hlt : i < k
    · simp [Memory.write, hlt]
    by_cases heq : i = k
    · simp [Memory.write, heq]
    · simp [Memory.write, hlt, heq, ih]

/-- A read that completes records one value, and repeated it returns the same one: it does not read the record. -/
theorem exec_read_repeats {i : Instr} {s t : State} (hread : i = .scaleRd ∨ i = .ctrlRd ∨ ∃ n, i = .bmpRd n)
    (h : exec i s = .next t) (ht : t.fault = none) : ∃ v, t = s.respond v ∧ exec i t = .next (t.respond v) := by
  obtain rfl | rfl | ⟨n, rfl⟩ := hread
  · obtain ⟨-, rfl⟩ | ⟨v, hv, rfl⟩ := execScaleRd_cases h
    · exact absurd ht (by simp)
    · exact ⟨v, rfl, exec_scaleRd_of_some hv⟩
  · cases h
    exact ⟨ctrlValue s, rfl, exec_ctrlRd _⟩
  · obtain ⟨-, rfl⟩ | ⟨v, hv, rfl⟩ := execBmpRd_cases h
    · exact absurd ht (by simp)
    · exact ⟨v, rfl, exec_bmpRd_of_some hv⟩

/-- DECODE writes no register and no bitmap word (R38). -/
theorem exec_decode_config {x y : Word} {s t : State} (h : exec (.decode x y) s = .next t) :
    t.scale = s.scale ∧ t.bmp = s.bmp ∧ t.draw = s.draw := by
  obtain ⟨r, -, rfl⟩ | ⟨e, -, rfl⟩ := execDecode_cases h
  · simp
  · exact ⟨rfl, rfl, rfl⟩

/-- Settles O14: reads repeat, DECODE writes no configuration, writes store and repeat without change, and the second
of two equal brackets finds DRAW as the first one left it. -/
theorem sideEffectsOfHostOperations : Obligations.SideEffectsOfHostOperations := by
  unfold Obligations.SideEffectsOfHostOperations
  refine ⟨fun i s t u hread _ h ht hu => ?_, fun x y s t h => exec_decode_config h, fun v s hd hv => ?_,
    fun i v s hd => ?_, fun s hd hs hf => ?_, fun s hd hi hf => ?_⟩
  · obtain ⟨v, rfl, hagain⟩ := exec_read_repeats hread h ht
    cases hu.symm.trans hagain
    exact ⟨v, rfl, by simp [State.respond]⟩
  · exact ⟨_, exec_scaleWr_of_idle hd hv, rfl, exec_scaleWr_of_idle (s := s.setScale v) hd hv⟩
  · refine ⟨_, exec_bmpWr_of_idle i v hd, rfl, Memory.read_write_self _ _ _,
      fun j hj => Memory.read_write_of_ne _ v hj, ?_⟩
    rw [exec_bmpWr_of_idle (s := s.setBmp i.toNat v) i v hd]
    simp [State.setBmp, Memory.write_write_self]
  · obtain ⟨sc, hsc⟩ := Option.ne_none_iff_exists'.1 hs
    refine ⟨exec_drawBegin_of_idle hd hsc, ?_⟩
    exact (exec_drawBegin_of_drawing rfl).trans (congrArg _ (State.raiseFault_of_none _ hf))
  · refine ⟨exec_drawEnd_of_drained hd hi, ?_⟩
    exact (exec_drawEnd_of_idle rfl).trans (congrArg _ (State.raiseFault_of_none _ hf))

/-! ### A step and its transaction -/

/-- A transaction that decodes is performed as its operation (R54). -/
theorem performTransaction_of_ok {run : Instr → State → Result} {tr : Transaction} {i : Instr} {s : State}
    (h : decode tr = .ok i) : performTransaction run tr s = run i s := by
  simp [performTransaction, h]

/-- A rejected HOST word takes F_RESERVED with its pattern, whatever the operations mean (R87). -/
theorem performTransaction_of_rejected {run : Instr → State → Result} {h : BitVec 40} {e : DecodeError} {s : State}
    (he : decodeHost h = .error e) : performTransaction run (.host h) s = .next (s.afterFault (.reserved h)) := by
  simp [performTransaction, decode, he, execReserved, raise, decodeHost_error_pattern he,
    State.raiseFault_eq_afterFault]

/-- Settles O33: with FAULT none the step performs the transaction, which decodes or is rejected. -/
theorem stepRunsTheDecodedOperation : Obligations.StepRunsTheDecodedOperation := by
  unfold Obligations.StepRunsTheDecodedOperation
  refine ⟨fun s tr rest i hp hf hdec _ => ?_, fun s h rest hp hf ⟨e, he⟩ => ?_⟩
  · exact (step_transaction hp hf).trans (performTransaction_of_ok hdec)
  · exact (step_transaction hp hf).trans (performTransaction_of_rejected he)

end Sys2Proof.Machine

/-! PROOFS of the family 30_encoding: the decoder, the encoder and the opcode map, the reserved words, the pixel
centres of binary32, and the event of a sample. First the words of each operation, said once (`HostEncoding`). -/

namespace Sys2Proof

/-! ### The words of each operation -/

/-- The HOST words that stand for each operation (R49, R50, R55): a read with any WDATA. `decodeHost_eq_ok` ties it to
the decoder. -/
inductive HostEncoding : BitVec 40 → Instr → Prop where
  | scaleRd (d : Word) : HostEncoding (hostWord false scaleWADDR d) .scaleRd
  | ctrlRd (d : Word) : HostEncoding (hostWord false ctrlWADDR d) .ctrlRd
  | bmpRd (i : BitVec 6) (d : Word) : HostEncoding (hostWord false (bmpWADDR i) d) (.bmpRd i)
  | scaleWr (v : Word) : HostEncoding (hostWord true scaleWADDR v) (.scaleWr v)
  | drawEnd : HostEncoding (hostWord true ctrlWADDR 0) .drawEnd
  | drawBegin : HostEncoding (hostWord true ctrlWADDR 1) .drawBegin
  | bmpWr (i : BitVec 6) (v : Word) : HostEncoding (hostWord true (bmpWADDR i) v) (.bmpWr i v)

/-- A WADDR with bit 6 set is the address of a bitmap word (R49). -/
theorem exists_eq_bmpWADDR {a : BitVec 7} (h : a.getLsbD 6 = true) : ∃ i, a = bmpWADDR i := by
  revert a; decide

/-- The decoder reads the operation back from each of its words. -/
theorem HostEncoding.decodeHost_eq {h : BitVec 40} {i : Instr} (he : HostEncoding h i) : decodeHost h = .ok i := by
  cases he with
  | bmpRd | bmpWr => simp [decodeHost]
  | scaleRd | scaleWr => simp [decodeHost, scaleWADDR]
  | ctrlRd | drawEnd | drawBegin => simp [decodeHost, scaleWADDR, ctrlWADDR]

/-- The decoder answers an operation on its words alone. -/
theorem HostEncoding.of_decodeHost {we : Bool} {a : BitVec 7} {d : Word} {i : Instr}
    (h : decodeHost (hostWord we a d) = .ok i) : HostEncoding (hostWord we a d) i := by
  simp only [decodeHost, hostWE_hostWord, hostWADDR_hostWord, hostWDATA_hostWord] at h
  cases we with
  | false =>
    simp only [Bool.false_eq_true, if_false] at h
    split_ifs at h with hbit hscale hctrl <;> cases h
    · obtain ⟨i, rfl⟩ := exists_eq_bmpWADDR hbit
      simpa using HostEncoding.bmpRd i d
    · exact hscale ▸ .scaleRd d
    · exact hctrl ▸ .ctrlRd d
  | true =>
    simp only [if_true] at h
    split_ifs at h with hbit hscale hctrl hzero hone <;> cases h
    · obtain ⟨i, rfl⟩ := exists_eq_bmpWADDR hbit
      simpa using HostEncoding.bmpWr i d
    · exact hscale ▸ .scaleWr d
    · exact hctrl ▸ hzero ▸ .drawEnd
    · exact hctrl ▸ hone ▸ .drawBegin

/-- When the HOST decoder answers an operation, and which. -/
theorem decodeHost_eq_ok {h : BitVec 40} {i : Instr} : decodeHost h = .ok i ↔ HostEncoding h i := by
  refine ⟨fun hd => ?_, HostEncoding.decodeHost_eq⟩
  rw [← hostWord_fields h] at hd ⊢
  exact .of_decodeHost hd

/-- Settles O1: the encoder writes one of the words of the operation, and a sample has the coordinates it was assembled
from. -/
theorem decodeEncodeRoundTrip : Obligations.DecodeEncodeRoundTrip := by
  unfold Obligations.DecodeEncodeRoundTrip
  intro i _
  cases i with
  | scaleRd => exact decodeHost_eq_ok.2 (.scaleRd 0)
  | ctrlRd => exact decodeHost_eq_ok.2 (.ctrlRd 0)
  | bmpRd i => exact decodeHost_eq_ok.2 (.bmpRd i 0)
  | scaleWr v => exact decodeHost_eq_ok.2 (.scaleWr v)
  | drawEnd => exact decodeHost_eq_ok.2 .drawEnd
  | drawBegin => exact decodeHost_eq_ok.2 .drawBegin
  | bmpWr i v => exact decodeHost_eq_ok.2 (.bmpWr i v)
  | decode x y => simp [decode, encode, decodeSample]

/-- The canonical encoding of the operation that a word stands for: the word if it is a write, the word with WDATA
cleared if it is a read (R50). -/
theorem HostEncoding.encode_eq {h : BitVec 40} {i : Instr} (he : HostEncoding h i) :
    encode i = .host (if hostWE h = true then h else h &&& 0xFF00000000#40) := by
  cases he with
  | scaleRd | ctrlRd | bmpRd => simp [encode, and_maskRegister]
  | scaleWr | drawEnd | drawBegin | bmpWr => simp [encode]

/-- Settles O2: a word that decodes is one of the words of its operation, and a sample is assembled from its own
coordinates. -/
theorem encodeDecodeCanonical : Obligations.EncodeDecodeCanonical := by
  unfold Obligations.EncodeDecodeCanonical
  refine ⟨fun h i hd => (decodeHost_eq_ok.1 hd).encode_eq, fun w => ?_⟩
  exact congrArg Transaction.sample (sampleWord_fields w)

/-! ### The opcode map -/

/-- The words that match a register row: WE and WADDR are the row's (R55). -/
theorem eq_hostWord_of_maskRegister {h : BitVec 40} {we : Bool} {a : BitVec 7}
    (hm : h &&& 0xFF00000000#40 = hostWord we a 0) : ∃ d, h = hostWord we a d := by
  rw [← hostWord_fields h, and_maskRegister, hostWord_inj] at hm
  obtain ⟨rfl, rfl, -⟩ := hm
  exact ⟨_, (hostWord_fields h).symm⟩

/-- The words that match a bitmap row: WE is the row's, and WADDR is the address of a bitmap word (R55). -/
theorem eq_hostWord_of_maskBitmap {h : BitVec 40} {we : Bool} (hm : h &&& 0xC000000000#40 = hostWord we 64#7 0) :
    ∃ i d, h = hostWord we (bmpWADDR i) d := by
  rw [← hostWord_fields h, and_maskBitmap, and_maskBit6, hostWord_inj] at hm
  obtain ⟨rfl, hbit, -⟩ := hm
  obtain ⟨i, hi⟩ := exists_eq_bmpWADDR (a := hostWADDR h) (by simpa using hbit)
  exact ⟨i, _, by rw [← hi, hostWord_fields]⟩

/-- The index field `H[37:32]` of a word with the address of `BMP[i]` (R49). -/
@[simp] theorem extractLsb'_index_hostWord (we : Bool) (i : BitVec 6) (d : Word) :
    (hostWord we (bmpWADDR i) d).extractLsb' 32 6 = i := by
  have hfield : ∀ h : BitVec 40, h.extractLsb' 32 6 = (hostWADDR h).extractLsb' 0 6 := fun h => by
    apply BitVec.eq_of_toNat_eq
    simp [hostWADDR]
  rw [hfield, hostWADDR_hostWord, bmpWADDR_index]

/-- A word of an operation matches the row of that operation under the row's mask. -/
theorem HostEncoding.and_mask {h : BitVec 40} {i : Instr} {row : OpcodeRow} (he : HostEncoding h i)
    (hr : i.hostRow = some row) : h &&& row.mask = row.pattern := by
  cases he with
  | scaleRd | ctrlRd | scaleWr =>
    cases hr
    exact (and_maskRegister ..).trans (by decide)
  | bmpRd | bmpWr =>
    cases hr
    refine (and_maskBitmap ..).trans ?_
    rw [and_maskBit6, if_pos (bmpWADDR_bit6 _)]
    decide
  | drawEnd | drawBegin =>
    cases hr
    decide

/-- A word that decodes to an operation matches that operation's row. -/
theorem and_mask_of_decodeHost {h : BitVec 40} {i : Instr} {row : OpcodeRow} (hd : decodeHost h = .ok i)
    (hr : i.hostRow = some row) : h &&& row.mask = row.pattern :=
  (decodeHost_eq_ok.1 hd).and_mask hr

/-- The words of SCALE_RD (R81). -/
theorem scaleRd_row_iff (h : BitVec 40) :
    h &&& 0xFF00000000#40 = 0x0000000000#40 ↔ decodeHost h = .ok .scaleRd := by
  refine ⟨fun hm => ?_, fun hd => and_mask_of_decodeHost hd rfl⟩
  obtain ⟨d, rfl⟩ := eq_hostWord_of_maskRegister (hm.trans (by decide : _ = hostWord false scaleWADDR 0))
  exact (HostEncoding.scaleRd d).decodeHost_eq

/-- The words of CTRL_RD (R82). -/
theorem ctrlRd_row_iff (h : BitVec 40) :
    h &&& 0xFF00000000#40 = 0x0100000000#40 ↔ decodeHost h = .ok .ctrlRd := by
  refine ⟨fun hm => ?_, fun hd => and_mask_of_decodeHost hd rfl⟩
  obtain ⟨d, rfl⟩ := eq_hostWord_of_maskRegister (hm.trans (by decide : _ = hostWord false ctrlWADDR 0))
  exact (HostEncoding.ctrlRd d).decodeHost_eq

/-- The words of BMP_RD, with the index it reads (R86). -/
theorem bmpRd_row_iff (h : BitVec 40) :
    h &&& 0xC000000000#40 = 0x4000000000#40 ↔ decodeHost h = .ok (.bmpRd (h.extractLsb' 32 6)) := by
  refine ⟨fun hm => ?_, fun hd => and_mask_of_decodeHost hd rfl⟩
  obtain ⟨i, d, rfl⟩ := eq_hostWord_of_maskBitmap (hm.trans (by decide : _ = hostWord false 64#7 0))
  rw [extractLsb'_index_hostWord]
  exact (HostEncoding.bmpRd i d).decodeHost_eq

/-- The words of SCALE_WR, with the value it writes (R80). -/
theorem scaleWr_row_iff (h : BitVec 40) :
    h &&& 0xFF00000000#40 = 0x8000000000#40 ↔ decodeHost h = .ok (.scaleWr (h.extractLsb' 0 32)) := by
  refine ⟨fun hm => ?_, fun hd => and_mask_of_decodeHost hd rfl⟩
  obtain ⟨v, rfl⟩ := eq_hostWord_of_maskRegister (hm.trans (by decide : _ = hostWord true scaleWADDR 0))
  rw [← hostWDATA, hostWDATA_hostWord]
  exact (HostEncoding.scaleWr v).decodeHost_eq

/-- The one word of DRAW_END (R84). -/
theorem drawEnd_row_iff (h : BitVec 40) :
    h &&& 0xFFFFFFFFFF#40 = 0x8100000000#40 ↔ decodeHost h = .ok .drawEnd := by
  refine ⟨fun hm => ?_, fun hd => and_mask_of_decodeHost hd rfl⟩
  obtain rfl : h = 0x8100000000#40 := (BitVec.and_allOnes (x := h)).symm.trans hm
  decide

/-- The one word of DRAW_BEGIN (R83). -/
theorem drawBegin_row_iff (h : BitVec 40) :
    h &&& 0xFFFFFFFFFF#40 = 0x8100000001#40 ↔ decodeHost h = .ok .drawBegin := by
  refine ⟨fun hm => ?_, fun hd => and_mask_of_decodeHost hd rfl⟩
  obtain rfl : h = 0x8100000001#40 := (BitVec.and_allOnes (x := h)).symm.trans hm
  decide

/-- The words of BMP_WR, with the index and the value it writes (R85). -/
theorem bmpWr_row_iff (h : BitVec 40) :
    h &&& 0xC000000000#40 = 0xC000000000#40 ↔
      decodeHost h = .ok (.bmpWr (h.extractLsb' 32 6) (h.extractLsb' 0 32)) := by
  refine ⟨fun hm => ?_, fun hd => and_mask_of_decodeHost hd rfl⟩
  obtain ⟨i, v, rfl⟩ := eq_hostWord_of_maskBitmap (hm.trans (by decide : _ = hostWord true 64#7 0))
  rw [extractLsb'_index_hostWord, ← hostWDATA, hostWDATA_hostWord]
  exact (HostEncoding.bmpWr i v).decodeHost_eq

/-- A row of the opcode map matches a word just when the word decodes to an operation of that row. -/
theorem matchesWord_iff {row : OpcodeRow} (hrow : row ∈ hostRows) (h : BitVec 40) :
    row.matchesWord h = true ↔ ∃ i, decodeHost h = .ok i ∧ i.hostRow = some row := by
  rw [OpcodeRow.matchesWord, decide_eq_true_iff]
  refine ⟨fun hm => ?_, fun ⟨i, hd, hr⟩ => and_mask_of_decodeHost hd hr⟩
  simp only [hostRows, List.mem_cons, List.not_mem_nil, or_false] at hrow
  obtain rfl | rfl | rfl | rfl | rfl | rfl | rfl := hrow
  · exact ⟨_, (scaleRd_row_iff h).1 hm, rfl⟩
  · exact ⟨_, (ctrlRd_row_iff h).1 hm, rfl⟩
  · exact ⟨_, (bmpRd_row_iff h).1 hm, rfl⟩
  · exact ⟨_, (scaleWr_row_iff h).1 hm, rfl⟩
  · exact ⟨_, (drawEnd_row_iff h).1 hm, rfl⟩
  · exact ⟨_, (drawBegin_row_iff h).1 hm, rfl⟩
  · exact ⟨_, (bmpWr_row_iff h).1 hm, rfl⟩

/-- The operation of a HOST word has a row in the opcode map. -/
theorem HostEncoding.exists_row {h : BitVec 40} {i : Instr} (he : HostEncoding h i) :
    ∃ row ∈ hostRows, i.hostRow = some row := by
  cases he <;> exact ⟨_, by decide, rfl⟩

/-- No row matches just the words that the decoder rejects (R54). -/
theorem no_row_matches_iff (h : BitVec 40) :
    (∀ row ∈ hostRows, row.matchesWord h = false) ↔ ∃ e, decodeHost h = .error e := by
  constructor
  · intro hnone
    cases hd : decodeHost h with
    | error e => exact ⟨e, rfl⟩
    | ok i =>
      obtain ⟨row, hrow, hr⟩ := (decodeHost_eq_ok.1 hd).exists_row
      have := (matchesWord_iff hrow h).2 ⟨i, hd, hr⟩
      simp [hnone row hrow] at this
  · rintro ⟨e, he⟩ row hrow
    rw [Bool.eq_false_iff, ne_eq, matchesWord_iff hrow, he]
    simp

/-- At most one row matches a word: the row of the operation that the word decodes to (R54). -/
theorem at_most_one_row_matches (h : BitVec 40) : (hostRows.filter (·.matchesWord h)).length ≤ 1 := by
  cases hd : decodeHost h with
  | error e =>
    have hnone := (no_row_matches_iff h).2 ⟨e, hd⟩
    simp [List.filter_eq_nil_iff.2 fun row hrow => Bool.eq_false_iff.1 (hnone row hrow)]
  | ok i =>
    obtain ⟨row, -, hr⟩ := (decodeHost_eq_ok.1 hd).exists_row
    have hsub : hostRows.filter (·.matchesWord h) ⊆ [row] := fun a ha => by
      obtain ⟨ha, hm⟩ := List.mem_filter.1 ha
      obtain ⟨j, hj, hja⟩ := (matchesWord_iff ha h).1 hm
      cases hd.symm.trans hj
      simpa using hja.symm.trans hr
    exact ((List.Nodup.filter _ (by decide)).subperm hsub).length_le

/-- Settles O3, row by row. -/
theorem hostDecoderFollowsOpcodeMap : Obligations.HostDecoderFollowsOpcodeMap := by
  unfold Obligations.HostDecoderFollowsOpcodeMap
  exact ⟨fun h => ⟨scaleRd_row_iff h, ctrlRd_row_iff h, bmpRd_row_iff h, scaleWr_row_iff h, drawEnd_row_iff h,
    drawBegin_row_iff h, bmpWr_row_iff h, no_row_matches_iff h, at_most_one_row_matches h⟩, fun w => rfl⟩

/-- Settles O5: each word is one of the words of its operation. -/
theorem writtenOutWordsDecode : Obligations.WrittenOutWordsDecode := by
  unfold Obligations.WrittenOutWordsDecode
  decide

/-! ### The reserved words -/

/-- WE as an equation of the word's number (R48). -/
theorem hostWE_iff (h : BitVec 40) : hostWE h = true ↔ h.toNat / 2 ^ 39 = 1 := by
  rw [← toNat_hostWE, Bool.toNat_eq_one]

/-- The decoder's tests of WADDR and WDATA as tests of their numbers (R49, R55). -/
theorem waddr_bit6_iff (a : BitVec 7) : a.getLsbD 6 = true ↔ 64 ≤ a.toNat := by
  revert a; decide

theorem waddr_eq_scale_iff (a : BitVec 7) : a = scaleWADDR ↔ a.toNat = 0 := BitVec.toNat_inj.symm

theorem waddr_eq_ctrl_iff (a : BitVec 7) : a = ctrlWADDR ↔ a.toNat = 1 := BitVec.toNat_inj.symm

theorem wdata_eq_zero_iff (d : Word) : d = 0 ↔ d.toNat = 0 := BitVec.toNat_inj.symm

theorem wdata_eq_one_iff (d : Word) : d = 1 ↔ d.toNat = 1 := BitVec.toNat_inj.symm

/-- The words that the decoder rejects are the two items of R56. -/
theorem decodeHost_error_iff (h : BitVec 40) :
    (∃ e, decodeHost h = .error e) ↔
      (2 ≤ h.toNat / 2 ^ 32 % 2 ^ 7 ∧ h.toNat / 2 ^ 32 % 2 ^ 7 ≤ 63) ∨
      (h.toNat / 2 ^ 39 = 1 ∧ h.toNat / 2 ^ 32 % 2 ^ 7 = 1 ∧ h.toNat % 2 ^ 32 ≠ 0 ∧ h.toNat % 2 ^ 32 ≠ 1) := by
  simp only [decodeHost, hostWE_iff, waddr_bit6_iff, waddr_eq_scale_iff, waddr_eq_ctrl_iff, wdata_eq_zero_iff,
    wdata_eq_one_iff, toNat_hostWADDR, toNat_hostWDATA]
  -- In each branch the answer settles the left side, and the tests that lead there the right side.
  split_ifs <;> simp only [exists_false, Except.error.injEq, exists_eq', false_iff, true_iff] <;> omega

end Sys2Proof

namespace Sys2Proof.Machine

/-- Settles O4: a rejected word is one of R56, and performing it raises F_RESERVED and nothing else. -/
theorem reservedTransactionsFault : Obligations.ReservedTransactionsFault := by
  unfold Obligations.ReservedTransactionsFault
  exact ⟨decodeHost_error_iff, fun h s ⟨e, he⟩ => performTransaction_of_rejected he, fun h => rfl,
    fun w => ⟨decodeSample w, rfl⟩⟩

/-! ### Table words -/

/-- A table word that decodes to an operation is a transaction that does. -/
theorem exists_transaction_of_decodeTableWord {nbits w : Nat} {i : Instr} (h : decodeTableWord nbits w = some i) :
    ∃ tr, tableTransaction nbits w = some tr ∧ decode tr = .ok i := by
  unfold decodeTableWord at h
  split at h
  · cases h
  · rename_i tr htr
    split at h
    · rename_i j hj
      cases h
      exact ⟨tr, htr, hj⟩
    · cases h

/-- A table word that is a transaction is presented as it. -/
theorem withFetchWord_of_transaction {nbits w : Nat} {tr : Transaction} (s : State)
    (h : tableTransaction nbits w = some tr) : s.withFetchWord nbits w = s.present tr := by
  simp [State.withFetchWord, presentTableWord, h]

/-- Settles O34: the table word is presented as its transaction, and the step performs the transaction presented. -/
theorem presentedTableWordRunsNext : Obligations.PresentedTableWordRunsNext := by
  unfold Obligations.PresentedTableWordRunsNext
  intro s nbits w i hf hw
  obtain ⟨tr, htr, hdec⟩ := exists_transaction_of_decodeTableWord hw
  rw [withFetchWord_of_transaction s htr]
  exact (step_transaction (s := s.present tr) rfl hf).trans (performTransaction_of_ok hdec)

/-! ### The event of a sample -/

/-- In a draw call, a sample in the domain whose word is written has the event of its pixel (R62 to R72). -/
theorem sampleResult_of_inDomain {s : State} {x y sc w : Word} {px py : Nat} (hd : s.draw = true)
    (hs : s.scale = some sc) (hx : trunc32 x = .ok px) (hy : trunc32 y = .ok py)
    (hdom : inDomain sc.toNat px py = true)
    (hw : s.bmp.read (wordIndex (divide px sc.toNat) (divide py sc.toNat)) = some w) :
    sampleResult s x y = .ok (mkEvent px py (w.getLsbD (bitPosition (divide px sc.toNat)))) :=
  sampleResult_ok.2 ⟨hd, sc, px, py, hs, hx, hy, unpackPixel_ok.2 ⟨hdom, w, hw, by rw [bitTest_eq_getLsbD]⟩⟩

/-- Settles O19: the sample has the event of its pixel, and DECODE emits it. The coordinates are below 2^32, so the
event holds them exactly. -/
theorem decodeEmitsTheEventOfItsPixel : Obligations.DecodeEmitsTheEventOfItsPixel := by
  unfold Obligations.DecodeEmitsTheEventOfItsPixel
  intro x y sc w px py s hd hs hx hy hpx hpy hpx32 hpy32 hw
  have hdom : inDomain sc.toNat px py = true := (inDomain_iff _ _ _).2 ⟨hpx, hpy, hpx32, hpy32⟩
  obtain ⟨t, ht, hgain⟩ := decode_gainsEvent.2 (sampleResult_of_inDomain hd hs hx hy hdom hw)
  exact ⟨t, _, ht, hgain, Nat.mod_eq_of_lt hpx32, Nat.mod_eq_of_lt hpy32, rfl, rfl⟩

/-! ### Pixel centres in binary32 -/

/-- A binary32 word assembled from an exponent and a fraction has the sign bit 0, that exponent and that fraction
(R52). -/
theorem f32Sign_ofNat {e m : Nat} (he : e < 256) (hm : m < 2 ^ 23) :
    f32Sign (BitVec.ofNat 32 (e * 2 ^ 23 + m)) = false := by
  rw [f32Sign, BitVec.getLsbD_ofNat, Nat.testBit_lt_two_pow (by omega), Bool.and_false]

theorem f32Exponent_ofNat {e m : Nat} (he : e < 256) (hm : m < 2 ^ 23) :
    f32Exponent (BitVec.ofNat 32 (e * 2 ^ 23 + m)) = e := by
  rw [f32Exponent, BitVec.extractLsb'_toNat, BitVec.toNat_ofNat, Nat.shiftRight_eq_div_pow]
  omega

theorem f32Fraction_ofNat (e : Nat) {m : Nat} (hm : m < 2 ^ 23) :
    f32Fraction (BitVec.ofNat 32 (e * 2 ^ 23 + m)) = m := by
  rw [f32Fraction, BitVec.extractLsb'_toNat, BitVec.toNat_ofNat, Nat.shiftRight_eq_div_pow]
  omega

/-- The centre of a pixel has an exact encoding just below 2^23 (R60, R61). -/
theorem exists_f32Centre_iff (p : Nat) : p < 2 ^ 23 ↔ ∃ f, f32Centre p = some f := by
  rw [f32Centre]
  split_ifs with hp
  · exact iff_of_true hp ⟨_, rfl⟩
  · exact iff_of_false hp (by simp)

/-- The fields of the centre of pixel `p`: with `2^e` the leading power of `2·p + 1`, the exponent is `126 + e`, and the
significand is `2·p + 1` moved up to bit 23. -/
theorem f32Centre_fields {p : Nat} {f : Word} (h : f32Centre p = some f) :
    ∃ e ≤ 23, 2 * p + 1 < 2 ^ (e + 1) ∧ f32Sign f = false ∧ f32Exponent f = 126 + e ∧
      2 ^ 23 + f32Fraction f = (2 * p + 1) * 2 ^ (23 - e) := by
  have hp : p < 2 ^ 23 := (exists_f32Centre_iff p).2 ⟨f, h⟩
  simp only [f32Centre, if_pos hp, Option.some.injEq] at h
  subst h
  set e := (2 * p + 1).log2 with he
  have hlo : 2 ^ e ≤ 2 * p + 1 := Nat.log2_self_le (by omega)
  have hhi : 2 * p + 1 < 2 ^ (e + 1) := Nat.lt_log2_self
  have he23 : e ≤ 23 := by
    have : e < 24 := (Nat.log2_lt (by omega)).2 (by omega)
    omega
  have hmul : 2 ^ e * 2 ^ (23 - e) = 2 ^ 23 := by rw [← pow_add, Nat.add_sub_cancel' he23]
  have hsigLo : 2 ^ 23 ≤ (2 * p + 1) * 2 ^ (23 - e) := hmul ▸ Nat.mul_le_mul_right _ hlo
  have hsigHi : (2 * p + 1) * 2 ^ (23 - e) < 2 * 2 ^ 23 := by
    rw [← hmul, ← mul_assoc, ← pow_succ']
    exact Nat.mul_lt_mul_of_pos_right hhi (by positivity)
  have hexp : 126 + e < 256 := by omega
  have hfrac : (2 * p + 1) * 2 ^ (23 - e) - 2 ^ 23 < 2 ^ 23 := by omega
  refine ⟨e, he23, hhi, f32Sign_ofNat hexp hfrac, f32Exponent_ofNat hexp hfrac, ?_⟩
  rw [f32Fraction_ofNat _ hfrac]
  omega

/-- The value of the centre is `(2·p + 1) / 2`: the significand and the exponent move by the same power of 2. -/
theorem f32Value_f32Centre {p : Nat} {f : Word} (h : f32Centre p = some f) :
    f32Value f = some ((p : ℚ) + 1 / 2) := by
  obtain ⟨e, he, -, hsign, hexp, hsig⟩ := f32Centre_fields h
  have hsigQ : (2 ^ 23 + (f32Fraction f : ℚ)) = (2 * p + 1) * 2 ^ (23 - e) := by exact_mod_cast hsig
  have hscale : (2 : ℚ) ^ (23 - e) * 2 ^ (((126 + e : ℕ) : ℤ) - 150) = 1 / 2 := by
    rw [← zpow_natCast, ← zpow_add₀ two_ne_zero,
      show ((23 - e : ℕ) : ℤ) + (((126 + e : ℕ) : ℤ) - 150) = -1 by omega]
    norm_num
  have h255 : 126 + e ≠ 255 := by omega
  have h0 : 126 + e ≠ 0 := by omega
  simp only [f32Value, hsign, hexp, h255, h0, if_false, hsigQ, Bool.false_eq_true, one_mul, mul_assoc, hscale]
  congr 1
  ring

/-- The centre truncates to its pixel: half of `2·p + 1`, without remainder. -/
theorem trunc32_f32Centre {p : Nat} {f : Word} (h : f32Centre p = some f) : trunc32 f = .ok p := by
  obtain ⟨e, he, hhi, hsign, hexp, hsig⟩ := f32Centre_fields h
  have hvalid : ¬ F32Invalid f := by
    rintro (h255 | ⟨hneg, -⟩)
    · omega
    · simp [hsign] at hneg
  rw [trunc32_valid hvalid, hexp, hsig]
  congr 1
  cases e with
  | zero =>
    rw [if_pos (by omega)]
    omega
  | succ e =>
    have hpow : 2 ^ (150 - (126 + (e + 1))) = 2 * 2 ^ (23 - (e + 1)) := by
      rw [← pow_succ']
      congr 1
      omega
    rw [if_neg (by omega), if_pos (by omega), hpow, Nat.mul_div_mul_right _ _ (by positivity)]
    omega

/-- Settles O16: the centre has an encoding just below 2^23, and its value and truncation follow from its fields. -/
theorem pixelCentreTruncatesToItsPixel : Obligations.PixelCentreTruncatesToItsPixel := by
  unfold Obligations.PixelCentreTruncatesToItsPixel
  exact fun p => ⟨exists_f32Centre_iff p, fun f hf => ⟨f32Value_f32Centre hf, trunc32_f32Centre hf⟩⟩

end Sys2Proof.Machine

/-! PROOFS of the family 40_sample_decode: the order of samples, DRAW_END, which delivers them, the front end in
rationals, the widths and bit fields of the indexer, the faults of DECODE in their order, and what DECODE depends on.
In each part its rules stand before its statements. -/

namespace Sys2Proof.Machine

/-! ### Samples decoded one after another -/

/-- A list of samples whose decoding ends without a fault began without one: no operation clears FAULT (R27). -/
theorem fault_none_of_decodeAll {cs : List (Word × Word)} {s t : State} (h : decodeAll cs s = .next t)
    (ht : t.fault = none) : s.fault = none := by
  induction cs generalizing s with
  | nil =>
    cases h
    exact ht
  | cons c cs ih =>
    obtain ⟨u, hu⟩ := exec_total (.decode c.1 c.2) s
    rw [decodeAll, hu] at h
    refine Option.eq_none_iff_forall_ne_some.2 fun r hr => ?_
    simpa [ih h] using (faultingOperationHasNoOtherEffect _ s u r hu).2 hr

/-- The samples of `c :: cs` end in a state without a fault just when the first has an event and the others, from the
state that has emitted it, end in that state. -/
theorem decodeAll_cons_iff {c : Word × Word} {cs : List (Word × Word)} {s t : State} (ht : t.fault = none) :
    decodeAll (c :: cs) s = .next t ↔
      ∃ e, sampleResult s c.1 c.2 = .ok e ∧ decodeAll cs (s.emit e) = .next t := by
  cases hr : sampleResult s c.1 c.2 with
  | ok e => simp [decodeAll, exec, execDecode, hr]
  | error r =>
    suffices decodeAll cs (s.raiseFault r) ≠ .next t by simpa [decodeAll, exec, execDecode, hr, raise]
    intro h
    simpa using fault_none_of_decodeAll h ht

/-- An event emitted before a sample does not change its result. -/
@[simp] theorem sampleResult_emit (e : Event) (s : State) (x y : Word) :
    sampleResult (s.emit e) x y = sampleResult s x y :=
  sampleResult_congr x y rfl rfl rfl

/-- Settles O24, by induction on the rearrangement: two neighbours exchange, since neither sample's result depends on
the other's event and the order in which the two events are added does not matter. -/
theorem decodeOrderDoesNotMatter : Obligations.DecodeOrderDoesNotMatter := by
  unfold Obligations.DecodeOrderDoesNotMatter
  intro cs ds s t hperm h ht
  induction hperm generalizing s with
  | nil => exact h
  | cons c _ ih =>
    obtain ⟨e, he, hrest⟩ := (decodeAll_cons_iff ht).1 h
    exact (decodeAll_cons_iff ht).2 ⟨e, he, ih _ hrest⟩
  | swap c d cs =>
    obtain ⟨e, he, hrest⟩ := (decodeAll_cons_iff ht).1 h
    obtain ⟨f, hf, hrest⟩ := (decodeAll_cons_iff ht).1 hrest
    rw [sampleResult_emit] at hf
    rw [State.emit_comm] at hrest
    refine (decodeAll_cons_iff ht).2 ⟨f, hf, (decodeAll_cons_iff ht).2 ⟨e, ?_, hrest⟩⟩
    rwa [sampleResult_emit]
  | trans _ _ ih₁ ih₂ => exact ih₂ s (ih₁ s h)

/-! ### DRAW_END delivers the accepted samples -/

/-- Emitting events changes OUT alone. -/
theorem State.emitAll_eq (es : List Event) (s : State) : s.emitAll es = { s with out := (s.emitAll es).out } := by
  induction es generalizing s with
  | nil => rfl
  | cons e es ih => exact ih (s.emit e)

/-- A DRAW_END whose accepted samples all have events delivers them and closes the draw call (R84). -/
theorem exec_drawEnd_of_collected {s : State} {es : List Event} (hd : s.draw = true)
    (hes : collectEvents s s.inflight = .ok es) :
    exec .drawEnd s = .next { s with draw := false, inflight := [], out := (s.emitAll es).out } := by
  rw [exec, execDrawEnd, if_neg (by simp [hd]), hes]
  dsimp only
  rw [State.emitAll_eq]
  rfl

/-- The collected events are those that DECODE of the samples emits, sample by sample. -/
theorem collectEvents_iff_decode {s : State} {ws : List (BitVec 64)} {es : List Event} :
    collectEvents s ws = .ok es ↔
      List.Forall₂ (fun w e => ∃ t, exec (.decode (w.extractLsb' 32 32) (w.extractLsb' 0 32)) s = .next t ∧
        GainsEvent s t e) ws es := by
  simp only [decode_gainsEvent]
  exact collectEvents_ok

/-- Settles O10: between draw calls it faults, and in one it delivers the events of INFLIGHT, none when it is empty. -/
theorem drawEndFollowsItsRule : Obligations.DrawEndFollowsItsRule := by
  unfold Obligations.DrawEndFollowsItsRule
  refine ⟨HostEncoding.drawEnd.decodeHost_eq, fun s hd => ?_, fun s hd hi => exec_drawEnd_of_drained hd hi,
    fun s es => collectEvents_iff_decode, fun s es hd hes => ?_⟩
  · rw [exec_drawEnd_of_idle hd, State.raiseFault_eq_afterFault]
  · exact ⟨_, exec_drawEnd_of_collected hd (collectEvents_iff_decode.2 hes), fun f => State.count_emitAll f es s⟩

/-! ### Coordinates as rationals -/

/-- The magnitude of a finite binary32 field (R52); `f32Value_eq` ties it to `f32Value`. -/
def f32Magnitude (f : Word) : ℚ :=
  if f32Exponent f = 0 then f32Fraction f * 2 ^ (-149 : ℤ)
  else (2 ^ 23 + f32Fraction f) * 2 ^ ((f32Exponent f : ℤ) - 150)

/-- A finite field is its magnitude with its sign (R52). -/
theorem f32Value_eq (f : Word) :
    f32Value f = if f32Exponent f = 255 then none
      else some (if f32Sign f = true then -f32Magnitude f else f32Magnitude f) := by
  unfold f32Value f32Magnitude
  split_ifs <;> simp only [one_mul, neg_mul]

theorem f32Magnitude_nonneg (f : Word) : 0 ≤ f32Magnitude f := by
  unfold f32Magnitude
  split_ifs <;> positivity

/-- Only the two zeros have the magnitude 0. -/
theorem f32Magnitude_eq_zero_iff (f : Word) : f32Magnitude f = 0 ↔ f32Exponent f = 0 ∧ f32Fraction f = 0 := by
  unfold f32Magnitude
  split_ifs with he
  · simp [he]
  · have hpos : (0 : ℚ) < (2 ^ 23 + f32Fraction f) * 2 ^ ((f32Exponent f : ℤ) - 150) := by positivity
    simp [he, hpos.ne']

/-- The faulted fields of R63 are the infinities and NaNs and the negative values. -/
theorem f32Invalid_iff (f : Word) : F32Invalid f ↔ f32Value f = none ∨ ∃ q, f32Value f = some q ∧ q < 0 := by
  rw [f32Value_eq]
  by_cases he : f32Exponent f = 255
  · simp [F32Invalid, he]
  have hlt : 0 < f32Magnitude f ↔ f32Exponent f ≠ 0 ∨ f32Fraction f ≠ 0 := by
    rw [(f32Magnitude_nonneg f).lt_iff_ne', ne_eq, f32Magnitude_eq_zero_iff, not_and_or]
  cases hs : f32Sign f
  · simp [F32Invalid, he, hs, f32Magnitude_nonneg f]
  · simp [F32Invalid, he, hs, hlt]

/-- Below the exponent 127 the magnitude is below 1. -/
theorem f32Magnitude_lt_one {f : Word} (h : f32Exponent f < 127) : f32Magnitude f < 1 := by
  have hfrac : (f32Fraction f : ℚ) < 2 ^ 23 := by exact_mod_cast f32Fraction_lt f
  unfold f32Magnitude
  split_ifs
  · calc (f32Fraction f : ℚ) * 2 ^ (-149 : ℤ) < 2 ^ 23 * 2 ^ (-149 : ℤ) := by gcongr
      _ < 1 := by norm_num
  · have hexp : (f32Exponent f : ℤ) - 150 ≤ -24 := by omega
    calc (2 ^ 23 + f32Fraction f : ℚ) * 2 ^ ((f32Exponent f : ℤ) - 150)
        < (2 ^ 23 + 2 ^ 23) * 2 ^ ((f32Exponent f : ℤ) - 150) := by gcongr
      _ ≤ (2 ^ 23 + 2 ^ 23) * 2 ^ (-24 : ℤ) := by gcongr; norm_num
      _ = 1 := by norm_num

/-- The floor of the magnitude, by the three ranges of the exponent that R63 tells apart. -/
theorem floor_f32Magnitude (f : Word) :
    ⌊f32Magnitude f⌋₊ = if f32Exponent f < 127 then 0
      else if f32Exponent f ≤ 150 then (2 ^ 23 + f32Fraction f) / 2 ^ (150 - f32Exponent f)
      else (2 ^ 23 + f32Fraction f) * 2 ^ (f32Exponent f - 150) := by
  split_ifs with h127 h150
  · exact Nat.floor_eq_zero.2 (f32Magnitude_lt_one h127)
  · have hexp : (f32Exponent f : ℤ) - 150 = -((150 - f32Exponent f : ℕ) : ℤ) := by omega
    rw [f32Magnitude, if_neg (by omega), hexp, zpow_neg, zpow_natCast, ← div_eq_mul_inv,
      ← Nat.floor_div_eq_div (K := ℚ)]
    push_cast
    rfl
  · have hexp : (f32Exponent f : ℤ) - 150 = ((f32Exponent f - 150 : ℕ) : ℤ) := by omega
    rw [f32Magnitude, if_neg (by omega), hexp, zpow_natCast,
      ← Nat.floor_natCast (R := ℚ) ((2 ^ 23 + f32Fraction f) * 2 ^ (f32Exponent f - 150))]
    push_cast
    rfl

/-- A value of at least 0 is its magnitude: with the sign bit set it is −0.0. -/
theorem f32Magnitude_of_nonneg {f : Word} {q : ℚ} (h : f32Value f = some q) (hq : 0 ≤ q) : f32Magnitude f = q := by
  have hnonneg := f32Magnitude_nonneg f
  rw [f32Value_eq] at h
  split_ifs at h <;> cases h
  · linarith
  · rfl

/-- Settles O15: a value of at least 0 is not faulted, and both `trunc32` and the floor of its magnitude go by the
ranges of the exponent. -/
theorem truncationIsTheExactFloor : Obligations.TruncationIsTheExactFloor := by
  unfold Obligations.TruncationIsTheExactFloor
  refine fun f => ⟨f32Invalid_iff f, trunc32_invalid, fun q hv hq => ?_⟩
  have hvalid : ¬ F32Invalid f := by simpa [f32Invalid_iff, hv] using hq
  rw [trunc32_valid hvalid, ← floor_f32Magnitude, f32Magnitude_of_nonneg hv hq]

/-! ### The indexer -/

/-- The left half-row selects the even word (R66). -/
theorem wordIndex_left {lx : Nat} (ly : Nat) (h : lx ≤ 31) : wordIndex lx ly = 2 * ly := by
  simp only [wordIndex, Config.bitsPerWord, Config.wordsPerRow]
  omega

/-- The right half-row selects the odd word (R66). -/
theorem wordIndex_right {lx : Nat} (ly : Nat) (hlo : 32 ≤ lx) (hhi : lx < 64) : wordIndex lx ly = 2 * ly + 1 := by
  simp only [wordIndex, Config.bitsPerWord, Config.wordsPerRow]
  omega

/-- Settles O17, from the bounds of each stage. -/
theorem datapathValuesFitTheirWidths : Obligations.DatapathValuesFitTheirWidths := by
  unfold Obligations.DatapathValuesFitTheirWidths
  refine fun s px py hs => ⟨(divide_lt_iff px 64 hs).symm, (divide_lt_iff py 32 hs).symm, fun hdom => ?_⟩
  obtain ⟨hlx, hly⟩ := logical_lt_of_inDomain hdom
  exact ⟨Nat.le_of_lt_succ hlx, Nat.le_of_lt_succ hly, Nat.le_of_lt_succ (bitPosition_lt _),
    Nat.le_of_lt_succ (wordIndex_lt hlx hly), wordIndex_left _, fun h => wordIndex_right _ h hlx⟩

/-- The half-row of a column is its bit 5 (R68). -/
theorem toNat_column_bit5 {lx : Nat} (h : lx < 64) : ((BitVec.ofNat 6 lx).extractLsb' 5 1).toNat = lx / 32 := by
  rw [BitVec.extractLsb'_toNat, BitVec.toNat_ofNat, Nat.shiftRight_eq_div_pow]
  omega

/-- The place of a column in its half-row is its bits 4:0 (R68). -/
theorem toNat_column_bits40 (lx : Nat) : ((BitVec.ofNat 6 lx).extractLsb' 0 5).toNat = lx % 32 := by
  rw [BitVec.extractLsb'_toNat, BitVec.toNat_ofNat, Nat.shiftRight_eq_div_pow]
  omega

/-- The word index is the row followed by the half-row bit (R68). -/
theorem wordIndex_eq_append {lx ly : Nat} (hx : lx < 64) (hy : ly < 32) :
    BitVec.ofNat 6 (wordIndex lx ly) = BitVec.ofNat 5 ly ++ (BitVec.ofNat 6 lx).extractLsb' 5 1 := by
  apply BitVec.eq_of_toNat_eq
  have hhalf : lx / 32 < 2 ^ 1 := by omega
  rw [BitVec.toNat_append, toNat_column_bit5 hx, ← Nat.shiftLeft_add_eq_or_of_lt hhalf, Nat.shiftLeft_eq,
    BitVec.toNat_ofNat, BitVec.toNat_ofNat, Nat.mod_eq_of_lt (wordIndex_lt hx hy), Nat.mod_eq_of_lt hy]
  simp only [wordIndex, Config.bitsPerWord, Config.wordsPerRow]
  omega

/-- The bit position is the complement of the column's bits 4:0 (R68). -/
theorem bitPosition_eq_not (lx : Nat) :
    BitVec.ofNat 5 (bitPosition lx) = ~~~((BitVec.ofNat 6 lx).extractLsb' 0 5) := by
  apply BitVec.eq_of_toNat_eq
  rw [BitVec.toNat_not, toNat_column_bits40, BitVec.toNat_ofNat, Nat.mod_eq_of_lt (bitPosition_lt lx)]
  rfl

/-- Settles O18, field by field; 31 is all ones in five bits, so the XOR with it is the complement. -/
theorem indexerInBitFields : Obligations.IndexerInBitFields := by
  unfold Obligations.IndexerInBitFields
  refine fun lx ly hx hy => ⟨(toNat_column_bit5 hx).symm, (toNat_column_bits40 lx).symm, wordIndex_eq_append hx hy,
    bitPosition_eq_not lx, ?_⟩
  exact (bitPosition_eq_not lx).trans BitVec.allOnes_xor.symm

/-! ### The faults of DECODE -/

/-- In a draw call, a sample with two valid coordinates has the result of its pixel (R62). -/
theorem sampleResult_eq_unpackPixel {s : State} {x y sc : Word} {px py : Nat} (hd : s.draw = true)
    (hs : s.scale = some sc) (hx : trunc32 x = .ok px) (hy : trunc32 y = .ok py) :
    sampleResult s x y = unpackPixel s.bmp sc.toNat px py := by
  simp [sampleResult, laneEvaluate, hd, hs, hx, hy]

/-- In a draw call, a sample in the domain whose word is ⊥ faults with the word's index (R69). -/
theorem exec_decode_of_unset {s : State} {x y sc : Word} {px py : Nat} (hd : s.draw = true) (hs : s.scale = some sc)
    (hx : trunc32 x = .ok px) (hy : trunc32 y = .ok py) (hdom : inDomain sc.toNat px py = true)
    (hread : s.bmp.read (wordIndex (divide px sc.toNat) (divide py sc.toNat)) = none) :
    exec (.decode x y) s =
      .next (s.afterFault (.bitmapUnset (wordIndex (divide px sc.toNat) (divide py sc.toNat)))) :=
  exec_decode_of_error <|
    (sampleResult_eq_unpackPixel hd hs hx hy).trans (unpackPixel_error.2 (.inr ⟨hdom, hread, rfl⟩))

/-- Settles O20, clause by clause in the order of R102. -/
theorem decodeFaultsInOrder : Obligations.DecodeFaultsInOrder := by
  unfold Obligations.DecodeFaultsInOrder
  refine fun x y s => ⟨fun hd => exec_decode_of_error (sampleResult_error.2 (.inl ⟨hd, rfl⟩)), fun sc hd hs =>
    ⟨fun hx => ?_, fun hx hy => ?_, fun px py hx hy => ⟨fun hout => ?_, fun hpx hpy hpx32 hpy32 hread => ?_⟩⟩⟩
  · exact exec_decode_of_error (sampleResult_error.2 (.inr (.inr ⟨sc, hd, hs, .inl (trunc32_invalid hx)⟩)))
  · exact exec_decode_of_error (sampleResult_error.2
      (.inr (.inr ⟨sc, hd, hs, .inr ⟨_, trunc32_valid hx, .inl (trunc32_invalid hy)⟩⟩)))
  · have hdom : inDomain sc.toNat px py = false := by
      rw [Bool.eq_false_iff, ne_eq, inDomain_iff]
      omega
    exact exec_decode_of_error
      ((sampleResult_eq_unpackPixel hd hs hx hy).trans (unpackPixel_error.2 (.inl ⟨hdom, rfl⟩)))
  · exact exec_decode_of_unset hd hs hx hy ((inDomain_iff _ _ _).2 ⟨hpx, hpy, hpx32, hpy32⟩) hread

/-! ### What DECODE depends on -/

/-- Settles O22: the result of a sample depends on DRAW, SCALE and BMP, and DECODE on that result. -/
theorem decodeIsPure : Obligations.DecodeIsPure := by
  unfold Obligations.DecodeIsPure
  exact fun x y s s' hd hs hb => exec_decode_agree (sampleResult_congr x y hd hs hb)

/-- The physical coordinates of one logical coordinate are `sc` in a row (R74). -/
theorem div_eq_iff_block {sc : Nat} (l p : Nat) (hsc : 1 ≤ sc) : p / sc = l ↔ sc * l ≤ p ∧ p < sc * l + sc := by
  rw [Nat.div_eq_iff hsc, mul_comm l sc]
  omega

/-- Settles O21: samples with one logical pixel fetch one word, and if it is written they test one bit of it. -/
theorem scalingProducesUniformBlocks : Obligations.ScalingProducesUniformBlocks := by
  unfold Obligations.ScalingProducesUniformBlocks
  refine ⟨fun sc l p hsc => div_eq_iff_block l p hsc, ?_⟩
  intro s sc x y x' y' px py px' py' hd hs hx hy hx' hy' hdom hdom' hlx hly
  change divide px sc.toNat = divide px' sc.toNat at hlx
  change divide py sc.toNat = divide py' sc.toNat at hly
  cases hread : s.bmp.read (wordIndex (divide px sc.toNat) (divide py sc.toNat)) with
  | none =>
    refine .inr ⟨_, exec_decode_of_unset hd hs hx hy hdom hread, ?_⟩
    rw [hlx, hly] at hread ⊢
    exact exec_decode_of_unset hd hs hx' hy' hdom' hread
  | some w =>
    obtain ⟨t, ht, hgain⟩ := decode_gainsEvent.2 (sampleResult_of_inDomain hd hs hx hy hdom hread)
    rw [hlx, hly] at hread
    obtain ⟨t', ht', hgain'⟩ := decode_gainsEvent.2 (sampleResult_of_inDomain hd hs hx' hy' hdom' hread)
    exact .inl ⟨t, t', _, _, ht, ht', hgain, hgain', by simp only [mkEvent, hlx], by simp only [mkEvent, hlx]⟩

end Sys2Proof.Machine

/-! PROOFS of the family 41_host_config: one rule for each host operation, which operation writes which state, and the
successful end of a run. First the case equations of `exec` that are missing above, then the statements. -/

namespace Sys2Proof.Machine

/-! ### The faults of the host operations -/

/-- A raise answers the state R89 describes. -/
theorem raise_eq_afterFault (r : FaultRecord) (s : State) : raise r s = .next (s.afterFault r) :=
  congrArg Host.Outcome.next (State.raiseFault_eq_afterFault r s)

/-- A SCALE_WR inside a draw call faults with the address of SCALE (R80, R96). -/
theorem exec_scaleWr_of_drawing {s : State} (v : Word) (hd : s.draw = true) :
    exec (.scaleWr v) s = .next (s.afterFault (.writeInDraw scaleWADDR)) := by
  rw [exec, execScaleWr, if_pos hd, raise_eq_afterFault]

/-- A SCALE_WR of 0 between draw calls faults with the value (R80, R90). -/
theorem exec_scaleWr_zero {s : State} (hd : s.draw = false) :
    exec (.scaleWr 0) s = .next (s.afterFault (.scaleZero 0)) := by
  rw [exec, execScaleWr, if_neg (by simp [hd]), if_pos rfl, raise_eq_afterFault]

/-- SCALE_RD of an unwritten SCALE faults with its address (R81). -/
theorem exec_scaleRd_of_none {s : State} (h : s.scale = none) :
    exec .scaleRd s = .next (s.afterFault (.unsetRead scaleWADDR)) := by
  simp only [exec, execScaleRd, h, raise_eq_afterFault]

/-- A DRAW_BEGIN between draw calls with SCALE unwritten faults (R83). -/
theorem exec_drawBegin_of_unset {s : State} (hd : s.draw = false) (hs : s.scale = none) :
    exec .drawBegin s = .next (s.afterFault .scaleUnset) := by
  simp [exec, execDrawBegin, hd, hs, raise_eq_afterFault]

/-- A BMP_WR inside a draw call faults with the address of its word (R85, R96). -/
theorem exec_bmpWr_of_drawing {s : State} (i : BitVec 6) (v : Word) (hd : s.draw = true) :
    exec (.bmpWr i v) s = .next (s.afterFault (.writeInDraw (bmpWADDR i))) := by
  rw [exec, execBmpWr, if_pos hd, raise_eq_afterFault]

/-- BMP_RD of an unwritten word faults with its address (R86). -/
theorem exec_bmpRd_of_none {s : State} {i : BitVec 6} (h : s.bmp.read i.toNat = none) :
    exec (.bmpRd i) s = .next (s.afterFault (.unsetRead (bmpWADDR i))) := by
  simp only [exec, execBmpRd, h, raise_eq_afterFault]

/-! ### The values in the rules -/

/-- The address of `BMP[i]` as the number 64 + i (R49). -/
theorem bmpWADDR_eq_ofNat (i : BitVec 6) : bmpWADDR i = BitVec.ofNat 7 (64 + i.toNat) := by
  apply BitVec.eq_of_toNat_eq
  rw [toNat_bmpWADDR, BitVec.toNat_ofNat]
  omega

/-- CTRL reads as DRAW in bit 0 and zeros above (R20, R82). -/
theorem ctrlValue_eq (s : State) : ctrlValue s = if s.draw = true then 1 else 0 := by
  rw [ctrlValue]
  cases s.draw <;> rfl

/-! ### Which operation writes which state -/

/-- Settles O30, by the effect of the operation: each effect writes one part of the state, and the operation that has
that effect is the one named for that part. -/
theorem operationsWriteOnlyTheirState : Obligations.OperationsWriteOnlyTheirState := by
  unfold Obligations.OperationsWriteOnlyTheirState
  intro i s t hi h
  cases exec_effect h with
  | fault _ r => simp [hi]
  | respond v isRead =>
    obtain rfl | rfl | ⟨n, rfl⟩ := isRead <;> simp [hi]
  | setScale => simp [hi]
  | @setBmp n v =>
    refine ⟨rfl, hi, fun _ => rfl, fun hother => absurd rfl (hother n v), fun m w hmw j hj => ?_, fun _ _ => rfl,
      fun _ => rfl, fun _ _ _ => rfl⟩
    cases hmw
    exact Memory.read_write_of_ne s.bmp v hj
  | openDraw => simp [hi]
  | @closeDraw es _ drains =>
    obtain rfl : [] = es := by simpa [hi, collectEvents] using drains
    simp [State.emitAll]
  | emit => simp [hi]

/-! ### One rule for each host operation -/

/-- Settles O6, fault by fault in the order of R102. -/
theorem scaleWriteFollowsItsRule : Obligations.ScaleWriteFollowsItsRule := by
  unfold Obligations.ScaleWriteFollowsItsRule
  refine ⟨fun h => (scaleWr_row_iff h).1, fun v s =>
    ⟨exec_scaleWr_of_drawing v, fun hd hv => ?_, exec_scaleWr_of_idle⟩⟩
  subst hv
  exact exec_scaleWr_zero hd

/-- Settles O7: SCALE is unwritten or has a value. -/
theorem scaleReadFollowsItsRule : Obligations.ScaleReadFollowsItsRule := by
  unfold Obligations.ScaleReadFollowsItsRule
  exact ⟨fun h => (scaleRd_row_iff h).1, fun s => ⟨exec_scaleRd_of_none, fun v => exec_scaleRd_of_some⟩⟩

/-- Settles O8: CTRL_RD returns CTRL, whose value is DRAW. -/
theorem ctrlReadFollowsItsRule : Obligations.CtrlReadFollowsItsRule := by
  unfold Obligations.CtrlReadFollowsItsRule
  refine ⟨fun h => (ctrlRd_row_iff h).1, fun s => ?_⟩
  rw [exec_ctrlRd, State.respond, ctrlValue_eq]

/-- Settles O9: the two faults in the order of R102, and the draw call opened, which a DRAW_END with nothing in flight
closes again. -/
theorem drawBeginFollowsItsRule : Obligations.DrawBeginFollowsItsRule := by
  unfold Obligations.DrawBeginFollowsItsRule
  refine ⟨HostEncoding.drawBegin.decodeHost_eq, fun s => ⟨fun hd => ?_, exec_drawBegin_of_unset, fun hd hs => ?_,
    fun hd hs hi => ?_⟩⟩
  · rw [exec_drawBegin_of_drawing hd, State.raiseFault_eq_afterFault]
  · obtain ⟨sc, hsc⟩ := Option.ne_none_iff_exists'.1 hs
    exact exec_drawBegin_of_idle hd hsc
  · obtain ⟨sc, hsc⟩ := Option.ne_none_iff_exists'.1 hs
    have hrestored : (s.setDraw true).setDraw false = s := by rw [State.setDraw, State.setDraw, ← hd]
    refine ⟨_, exec_drawBegin_of_idle hd hsc, ?_⟩
    rw [exec_drawEnd_of_drained (s := s.setDraw true) rfl hi, hrestored]

/-- Settles O11: the fault names the word's address, and the write obeys the buffer's law of a read after a write. -/
theorem bitmapWriteFollowsItsRule : Obligations.BitmapWriteFollowsItsRule := by
  unfold Obligations.BitmapWriteFollowsItsRule
  refine ⟨fun h => (bmpWr_row_iff h).1, fun i v s => ⟨fun hd => ?_, fun hd => ?_⟩⟩
  · rw [exec_bmpWr_of_drawing i v hd, bmpWADDR_eq_ofNat]
  · exact ⟨_, exec_bmpWr_of_idle i v hd, Memory.read_write_self _ _ _, fun j hj => Memory.read_write_of_ne _ v hj⟩

/-- Settles O12: the word is unwritten, and the fault names its address, or it has a value. -/
theorem bitmapReadFollowsItsRule : Obligations.BitmapReadFollowsItsRule := by
  unfold Obligations.BitmapReadFollowsItsRule
  refine ⟨fun h => (bmpRd_row_iff h).1, fun i s => ⟨fun hread => ?_, fun v => exec_bmpRd_of_some⟩⟩
  rw [exec_bmpRd_of_none hread, bmpWADDR_eq_ofNat]

/-! ### The end of a run -/

/-- Settles O38: the DRAW_END decodes and closes the draw call, which leaves no input and writes DRAW alone; each of the
other three states lacks one condition of a successful end. -/
theorem runEndsSuccessfullyWithItsDrawEnd : Obligations.RunEndsSuccessfullyWithItsDrawEnd := by
  unfold Obligations.RunEndsSuccessfullyWithItsDrawEnd
  refine ⟨fun s hd hf hi hp => ?_, fun s r hr hend => ?_, fun s hd hend => ?_, fun s h rest hp hend => ?_⟩
  · have hdec : decode (.host 0x8100000000#40) = .ok .drawEnd := HostEncoding.drawEnd.decodeHost_eq
    have hstep : step s = .next (State.setDraw false { s with pending := [] }) :=
      (stepRunsTheDecodedOperation.1 s _ [] _ hp hf hdec rfl).trans (exec_drawEnd_of_drained hd hi)
    exact ⟨_, hstep, ⟨hf, rfl, by simp⟩, rfl, rfl⟩
  · cases hr.symm.trans hend.noFault
  · cases hd.symm.trans hend.noDraw
  · cases hend.noHostPending (.transaction (.host h)) (by simp [hp])

end Sys2Proof.Machine

/-! PROOFS of the family 60_exceptions: how a fault is recorded, which runs stop, and which faults an operation can
raise. -/

namespace Sys2Proof.Machine

/-! ### Raising a fault -/

/-- Settles O26: a raise answers the state R89 describes, in which FAULT is set, so that a second raise keeps it. -/
theorem firstFaultIsRecordedAlone : Obligations.FirstFaultIsRecordedAlone := by
  unfold Obligations.FirstFaultIsRecordedAlone
  refine fun r q s => ⟨raise_eq_afterFault r s, fun hf => ?_, raise_eq_next.2 (State.raiseFault_of_some q rfl)⟩
  rw [← State.raiseFault_eq_afterFault, State.raiseFault_of_none r hf]

/-! ### Which runs stop -/

/-- A faulted run whose next input is not the reset input stops (R89, R105). -/
theorem step_of_faulted {s : State} {r : FaultRecord} (hf : s.fault = some r) (hreset : NotReset s) :
    step s = .fault (.faultedRun r) := by
  cases hp : s.pending with
  | nil => simp [step, stepPort, hp, hf]
  | cons input rest =>
    cases input with
    | reset => exact absurd hp (hreset rest)
    | transaction tr => simp [step, stepPort, hp, hf]

/-- Performing a transaction, decoded or rejected, always answers a next state. -/
theorem performTransaction_total (tr : Transaction) (s : State) : ∃ t, performTransaction exec tr s = .next t := by
  cases hdec : decode tr with
  | ok i =>
    rw [performTransaction_of_ok hdec]
    exact exec_total i s
  | error e =>
    cases tr with
    | host h => exact ⟨_, performTransaction_of_rejected hdec⟩
    | sample w => cases hdec

/-- A run that has not faulted does not stop. -/
theorem step_total_of_no_fault {s : State} (hf : s.fault = none) : ∃ t, step s = .next t := by
  cases hp : s.pending with
  | nil => exact ⟨s, step_idle hp hf⟩
  | cons input rest =>
    cases input with
    | reset => exact ⟨_, step_reset hp⟩
    | transaction tr =>
      rw [step_transaction hp hf]
      exact performTransaction_total tr _

/-- Settles O27: a faulted run stops short of reset, and idling, a transaction and the reset input each answer a next
state. -/
theorem onlyFaultedRunsStop : Obligations.OnlyFaultedRunsStop := by
  unfold Obligations.OnlyFaultedRunsStop
  refine ⟨fun s r => step_of_faulted, fun s => step_total_of_no_fault, fun s => step_idle, fun s hreset => ?_⟩
  obtain ⟨rest, hp⟩ : ∃ rest, s.pending = .reset :: rest := by simpa [NotReset] using hreset
  exact ⟨_, step_reset hp, State.applyReset_fault rest⟩

/-! ### Which faults an operation raises -/

/-- The only fault of `trunc32` has code 3 (R92). -/
theorem code_of_trunc32_error {f : Word} {r : FaultRecord} (h : trunc32 f = .error r) : r.code = 3 := by
  obtain ⟨-, rfl⟩ := trunc32_error.1 h
  rfl

/-- From the truncated coordinates on, a sample faults with code 4 or 5 (R93, R94). -/
theorem code_of_unpackPixel_error {m : Memory} {s px py : Nat} {r : FaultRecord}
    (h : unpackPixel m s px py = .error r) : r.code = 4 ∨ r.code = 5 := by
  obtain ⟨-, rfl⟩ | ⟨-, -, rfl⟩ := unpackPixel_error.1 h
  · exact .inl rfl
  · exact .inr rfl

/-- Where SCALE is set in a draw call, as the invariant has it, a sample raises only the faults of DECODE (R92 to
R95). -/
theorem code_of_sampleResult_error {s : State} {x y : Word} {r : FaultRecord} (hset : s.draw = true → s.scale ≠ none)
    (h : sampleResult s x y = .error r) : r.code ∈ faultCodes (.decode x y) := by
  obtain ⟨-, rfl⟩ | ⟨hd, hs, -⟩ | ⟨sc, -, -, hx | ⟨px, -, hy | ⟨py, -, hu⟩⟩⟩ := sampleResult_error.1 h
  · simp [faultCodes, FaultRecord.code]
  · exact absurd hs (hset hd)
  · simp [faultCodes, code_of_trunc32_error hx]
  · simp [faultCodes, code_of_trunc32_error hy]
  · obtain hc | hc := code_of_unpackPixel_error hu <;> simp [faultCodes, hc]

/-- In a state that meets the invariant an operation takes one of its own faults, or it leaves FAULT as it was. -/
theorem BlockInv.exec_raises_or_fault_eq {i : Instr} {s t : State} (hinv : BlockInv s) (h : exec i s = .next t) :
    (∃ r, r.code ∈ faultCodes i ∧ t = s.raiseFault r) ∨ t.fault = s.fault := by
  cases i with
  | scaleRd =>
    obtain ⟨-, rfl⟩ | ⟨v, -, rfl⟩ := execScaleRd_cases h
    · exact .inl ⟨.unsetRead _, .head _, rfl⟩
    · exact .inr rfl
  | ctrlRd =>
    cases (exec_ctrlRd s).symm.trans h
    exact .inr rfl
  | bmpRd n =>
    obtain ⟨-, rfl⟩ | ⟨v, -, rfl⟩ := execBmpRd_cases h
    · exact .inl ⟨.unsetRead _, .head _, rfl⟩
    · exact .inr rfl
  | scaleWr v =>
    obtain ⟨-, rfl⟩ | ⟨-, -, rfl⟩ | ⟨-, -, rfl⟩ := execScaleWr_cases h
    · exact .inl ⟨.writeInDraw _, .tail _ (.head _), rfl⟩
    · exact .inl ⟨.scaleZero v, .head _, rfl⟩
    · exact .inr rfl
  | drawEnd =>
    cases hd : s.draw with
    | false =>
      cases (exec_drawEnd_of_idle hd).symm.trans h
      exact .inl ⟨.drawIdle, .head _, rfl⟩
    | true =>
      cases (exec_drawEnd_of_drained hd hinv.drained).symm.trans h
      exact .inr rfl
  | drawBegin =>
    obtain ⟨-, rfl⟩ | ⟨-, -, rfl⟩ | ⟨-, -, rfl⟩ := execDrawBegin_cases h
    · exact .inl ⟨.drawNested, .tail _ (.head _), rfl⟩
    · exact .inl ⟨.scaleUnset, .head _, rfl⟩
    · exact .inr rfl
  | bmpWr n v =>
    obtain ⟨-, rfl⟩ | ⟨-, rfl⟩ := execBmpWr_cases h
    · exact .inl ⟨.writeInDraw _, .head _, rfl⟩
    · exact .inr rfl
  | decode x y =>
    obtain ⟨r, hr, rfl⟩ | ⟨e, -, rfl⟩ := execDecode_cases h
    · exact .inl ⟨r, code_of_sampleResult_error hinv.scaleSet hr, rfl⟩
    · exact .inr rfl

/-- Settles O29: with FAULT none the recorded fault is the one the operation took, which is one of its own. -/
theorem operationsRaiseOnlyTheirFaults : Obligations.OperationsRaiseOnlyTheirFaults := by
  unfold Obligations.OperationsRaiseOnlyTheirFaults
  intro i s t r hinv hn h hr
  obtain ⟨q, hq, rfl⟩ | hf := hinv.exec_raises_or_fault_eq h
  · obtain rfl : q = r := by simpa [hn] using hr
    exact hq
  · simp [hf, hn] at hr

end Sys2Proof.Machine

/-! PROOFS of the family 70_reset_and_hazards: what the reset input leaves. -/

namespace Sys2Proof.Machine

/-- The values R110 gives the block's state after the reset input, whatever is still to be performed. -/
theorem State.applyReset_values (rest : List Input) :
    (State.applyReset rest).scale = none ∧ (∀ i, (State.applyReset rest).bmp.read i = none) ∧
      (State.applyReset rest).draw = false ∧ (State.applyReset rest).inflight = [] ∧
      (State.applyReset rest).fault = none ∧ (State.applyReset rest).out = [] :=
  ⟨State.applyReset_scale rest, Memory.read_nil, State.applyReset_draw rest, State.applyReset_inflight rest,
    State.applyReset_fault rest, State.applyReset_out rest⟩

/-- Settles O35: the step taken is the reset input's, and the state right after reset is that input's with nothing left
to perform. -/
theorem resetStartsANewRun : Obligations.ResetStartsANewRun := by
  unfold Obligations.ResetStartsANewRun
  exact ⟨fun s rest hp => ⟨_, step_reset hp, State.applyReset_values rest⟩, State.applyReset_values []⟩

end Sys2Proof.Machine
